-- ==== Sys2Proof/Word.lean ====
section
/-!
DEFINITION. The word types of the CORE (R6, R11, R17): a byte `B[7:0]`, a 32-bit word `W[31:0]`, the 293-bit
shift register `S` with `s[i]` at bit `i`, and the 128-bit tag register. A single bit is a `Bool`.
-/

namespace Sys2Proof

/-- A byte `B[7:0]`, bit 7 the most significant (R6). -/
abbrev Byte := BitVec 8

/-- A 32-bit word `W[31:0]`, bit 31 the most significant (R6). -/
abbrev Word32 := BitVec 32

/-- The logical view of the state register: bit `i` is `s[i]`, bit 0 the oldest, bit 292 the newest (R7, R11). -/
abbrev Lfsr := BitVec 293

/-- The 128 bits of the tag register, byte `TAG[i]` at bits `8i+7 .. 8i` (R17). -/
abbrev TagWord := BitVec 128

end Sys2Proof
end

