-- ==== Sys2Proof/Config.lean ====
section
/-!
DEFINITION. The parameters and constants of `00_scope.md` rule R5. A value fixed by DOC0 is a constant; a parameter the
spec settles (`BITORDER`, D1; `LEN_MAX`, D16) has the spec's value. `ZEROIZE_ON_FAIL` is false (D12): nothing reads it,
because `CT` has returned the plaintext before `CMP` runs (R125). `N_INSTANCES` is left open with the default 1 (D23): the
instances of `Sys2Proof/Machine/Instances.lean` are started in any number. No value of this machine is left free.
-/

namespace Sys2Proof

/-- Which bit of a byte is first in time (R33). -/
inductive BitOrder where
  | lsbFirst
  | msbFirst
  deriving DecidableEq, Repr

namespace Config

/-- `BITORDER` (R5, R33, decision D1; `90_conflicts.md` C1). -/
def bitOrder : BitOrder := .lsbFirst

/-- `LEN_MAX` (R5, R32, decision D16): the spec leaves it open and the model takes unbounded naturals. -/
def lenMax : Option Nat := none

/-- `N_INSTANCES` where nothing else is said (R5, decision D23). -/
def nInstances : Nat := 1

/-- `STATE_BITS` (R5). -/
def stateBits : Nat := 293

/-- `SEG_LEN[0..6]`, oldest to newest (R5, R12). -/
def segLen : List Nat := [61, 46, 47, 39, 37, 59, 4]

/-- `SEG_BASE[0..7]` (R5): the first logical index of each segment, then `STATE_BITS`. -/
def segBase : List Nat := [0, 61, 107, 154, 193, 230, 289, 293]

/-- `KEY_BYTES` (R5). -/
def keyBytes : Nat := 16

/-- `NONCE_BYTES` (R5). -/
def nonceBytes : Nat := 16

/-- `TAG_BYTES` (R5). -/
def tagBytes : Nat := 16

/-- `INIT_STEPS` (R5, R102). -/
def initSteps : Nat := 1792

/-- `TRAILER_BITS` (R5, R107). -/
def trailerBits : Nat := 256

/-- `FIN_DISCARD_STEPS` (R5, R106). -/
def finDiscardSteps : Nat := 640

/-- `FIN_TAG_STEPS` (R5, R106). -/
def finTagSteps : Nat := 128

end Config

end Sys2Proof
end

