-- ==== Sys2Proof/Syntax.lean ====
section
/-!
DEFINITION. The whole command set (R54): one constructor per row of `spec/opcode_table.json`. Format E (`step…`) carries
the control bits `ca` and `cb` of its word (R51); no other operand stands in a word (R51, R52). Beside it, the fields of a
raw command word before any check (R51, R52), and the names under which a word is rejected (R55).
-/

namespace Sys2Proof

/-- The thirteen operations of R54. -/
inductive Instr where
  /-- `STEP1 ca, cb, m -> ks` (R85). -/
  | step1 (ca cb : Bool)
  /-- `STEP1D ca, cb, c -> p` (R86). -/
  | step1d (ca cb : Bool)
  /-- `STEP8 ca, cb, M -> KS` (R87). -/
  | step8 (ca cb : Bool)
  /-- `STEP8D ca, cb, C -> P` (R88). -/
  | step8d (ca cb : Bool)
  /-- `STEP32 ca, cb, M -> KS` (R89). -/
  | step32 (ca cb : Bool)
  /-- `STEP32D ca, cb, C -> P` (R90). -/
  | step32d (ca cb : Bool)
  /-- `CLR` (R122). -/
  | clr
  /-- `INIT K, N` (R101). -/
  | init
  /-- `AD A` (R103). -/
  | ad
  /-- `PT P -> C` (R104). -/
  | pt
  /-- `CT C -> P` (R105). -/
  | ct
  /-- `FIN -> T` (R106). -/
  | fin
  /-- `CMP T -> ok` (R120). -/
  | cmp
  deriving DecidableEq, Repr

/-- The two forms of a state update (R9, R51 field `d`). -/
inductive Form where
  | encrypt
  | decrypt
  deriving DecidableEq, Repr

/-- The three engine widths (R5, R51 field `w`). -/
inductive Width where
  | bits1
  | bits8
  | bits32
  deriving DecidableEq, Repr

/-- The fields of an 8-bit command word as R51 (format E) and R52 (format H) cut it, before any of them is checked. -/
inductive RawWord where
  | formatE (w : BitVec 2) (d ca cb : Bool) (z : BitVec 2)
  | formatH (z : BitVec 3) (op : BitVec 4)
  deriving DecidableEq, Repr

/-- Why a command word selects no operation: the four lines of R55. -/
inductive DecodeError where
  /-- Format E with `w = 11`. -/
  | reservedWidth
  /-- Format E with `z ≠ 00`. -/
  | reservedBitsE
  /-- Format H with `z ≠ 000`. -/
  | reservedBitsH
  /-- Format H with `op` 7 to 15. -/
  | unassignedOp
  deriving DecidableEq, Repr

/-- A row of the opcode map: a word `cw` selects it when `(cw AND mask) = pattern` (R54). -/
structure OpcodeRow where
  mnemonic : String
  pattern : Byte
  mask : Byte
  deriving DecidableEq, Repr

end Sys2Proof
end

