-- ==== Sys2Proof/WellFormed.lean ====
section
/-!
DEFINITION. When the fields of a command word select an operation (R55). Every term of `Instr` is well formed by its
type: its only fields are the control bits, and R51 admits both values of each. So the checks stand on the raw fields of a
word, one per line of R55.
-/

namespace Sys2Proof

/-- Format E: the width code is not the reserved `11` (R51, R55). -/
def RawWord.widthAssigned : RawWord → Bool
  | .formatE w _ _ _ _ => w != 3#2
  | .formatH _ _ => true

/-- The bits `z` that must be zero are zero, `cw[1:0]` in format E and `cw[6:4]` in format H (R51, R52, R55). -/
def RawWord.zeroBitsClear : RawWord → Bool
  | .formatE _ _ _ _ z => z == 0#2
  | .formatH z _ => z == 0#3

/-- Format H: the opcode is one of 0 to 6 (R54, R55). -/
def RawWord.opAssigned : RawWord → Bool
  | .formatE _ _ _ _ _ => true
  | .formatH _ op => op.ult 7#4

/-- The word selects an operation (R55). -/
def RawWord.wellFormed (r : RawWord) : Bool :=
  r.widthAssigned && r.zeroBitsClear && r.opAssigned

end Sys2Proof
end

