-- ==== Sys2Proof/Decode.lean ====
section
/-!
DEFINITION. Decoding and encoding of the 8-bit command words (R50 to R55, R57). The decoder is total: each of the 256
words is an operation or is rejected by a name of R55. Every word has one length and its meaning depends on no mode (R57),
so decoding reads one byte and nothing else. The encoder is written from the same field tables.
-/

namespace Sys2Proof

/-- The fields of a command word: bit 7 selects the format (R50), R51 and R52 place the fields. -/
def splitWord (cw : Byte) : RawWord :=
  if cw.getLsbD 7 then .formatH (cw.extractLsb' 4 3) (cw.extractLsb' 0 4)
  else .formatE (cw.extractLsb' 5 2) (cw.getLsbD 4) (cw.getLsbD 3) (cw.getLsbD 2) (cw.extractLsb' 0 2)

/-- The word with the given fields (R51, R52). -/
def joinWord : RawWord → Byte
  | .formatE w d ca cb z => 0#1 ++ w ++ BitVec.ofBool d ++ BitVec.ofBool ca ++ BitVec.ofBool cb ++ z
  | .formatH z op => 1#1 ++ z ++ op

/-- Format E (R51, R53): the width code and the form bit select the operation. -/
def decodeE (w : BitVec 2) (d ca cb : Bool) (z : BitVec 2) : Except DecodeError Instr :=
  if z != 0#2 then .error .reservedBitsE
  else match w.toNat, d with
    | 0, false => .ok (.step1 ca cb)
    | 0, true => .ok (.step1d ca cb)
    | 1, false => .ok (.step8 ca cb)
    | 1, true => .ok (.step8d ca cb)
    | 2, false => .ok (.step32 ca cb)
    | 2, true => .ok (.step32d ca cb)
    | _, _ => .error .reservedWidth

/-- Format H (R52, R53): `op` is the opcode. -/
def decodeH (z : BitVec 3) (op : BitVec 4) : Except DecodeError Instr :=
  if z != 0#3 then .error .reservedBitsH
  else match op.toNat with
    | 0 => .ok .clr
    | 1 => .ok .init
    | 2 => .ok .ad
    | 3 => .ok .pt
    | 4 => .ok .ct
    | 5 => .ok .fin
    | 6 => .ok .cmp
    | _ => .error .unassignedOp

/-- The operation a command word selects (R54), or the line of R55 that rejects it. -/
def decode (cw : Byte) : Except DecodeError Instr :=
  match splitWord cw with
  | .formatE w d ca cb z => decodeE w d ca cb z
  | .formatH z op => decodeH z op

/-- The fields R54 gives each operation. -/
def Instr.raw : Instr → RawWord
  | .step1 ca cb => .formatE 0#2 false ca cb 0#2
  | .step1d ca cb => .formatE 0#2 true ca cb 0#2
  | .step8 ca cb => .formatE 1#2 false ca cb 0#2
  | .step8d ca cb => .formatE 1#2 true ca cb 0#2
  | .step32 ca cb => .formatE 2#2 false ca cb 0#2
  | .step32d ca cb => .formatE 2#2 true ca cb 0#2
  | .clr => .formatH 0#3 0#4
  | .init => .formatH 0#3 1#4
  | .ad => .formatH 0#3 2#4
  | .pt => .formatH 0#3 3#4
  | .ct => .formatH 0#3 4#4
  | .fin => .formatH 0#3 5#4
  | .cmp => .formatH 0#3 6#4

/-- An operation is well formed when the fields of its word pass the checks of R55. -/
def Instr.wellFormed (i : Instr) : Bool := i.raw.wellFormed

/-- The command word of an operation (R54). -/
def encode (i : Instr) : Byte := joinWord i.raw

/-- Format E, the operations only the controller issues (R50, R60). -/
def Instr.isFormatE : Instr → Bool
  | .step1 _ _ => true
  | .step1d _ _ => true
  | .step8 _ _ => true
  | .step8d _ _ => true
  | .step32 _ _ => true
  | .step32d _ _ => true
  | .clr => false
  | .init => false
  | .ad => false
  | .pt => false
  | .ct => false
  | .fin => false
  | .cmp => false

/-- The opcode map of R54, row by row. -/
def opcodeTable : List OpcodeRow :=
  [⟨"STEP1", 0x00#8, 0xF3#8⟩, ⟨"STEP1D", 0x10#8, 0xF3#8⟩, ⟨"STEP8", 0x20#8, 0xF3#8⟩,
   ⟨"STEP8D", 0x30#8, 0xF3#8⟩, ⟨"STEP32", 0x40#8, 0xF3#8⟩, ⟨"STEP32D", 0x50#8, 0xF3#8⟩,
   ⟨"CLR", 0x80#8, 0xFF#8⟩, ⟨"INIT", 0x81#8, 0xFF#8⟩, ⟨"AD", 0x82#8, 0xFF#8⟩, ⟨"PT", 0x83#8, 0xFF#8⟩,
   ⟨"CT", 0x84#8, 0xFF#8⟩, ⟨"FIN", 0x85#8, 0xFF#8⟩, ⟨"CMP", 0x86#8, 0xFF#8⟩]

/-- The row's mnemonic for an operation (R54). -/
def Instr.mnemonic : Instr → String
  | .step1 _ _ => "STEP1"
  | .step1d _ _ => "STEP1D"
  | .step8 _ _ => "STEP8"
  | .step8d _ _ => "STEP8D"
  | .step32 _ _ => "STEP32"
  | .step32d _ _ => "STEP32D"
  | .clr => "CLR"
  | .init => "INIT"
  | .ad => "AD"
  | .pt => "PT"
  | .ct => "CT"
  | .fin => "FIN"
  | .cmp => "CMP"

/-- The row of the opcode map a word selects (R54). -/
def OpcodeRow.selects (r : OpcodeRow) (cw : Byte) : Bool := (cw &&& r.mask) == r.pattern

/-- The command word whose bits are `w`, when they fit in the one 8-bit length there is (R50). -/
def tableWord (nbits w : Nat) : Option Byte :=
  if w % 2 ^ nbits < 256 then some (BitVec.ofNat 8 (w % 2 ^ nbits)) else none

/-- The instruction the decoder reads from an instruction whose bits are `w`, as `spec/opcode_table.json` numbers them. -/
def decodeTableWord (nbits w : Nat) : Option Instr :=
  match tableWord nbits w with
  | some cw => (decode cw).toOption
  | none => none

end Sys2Proof
end

