-- ==== Sys2Proof/Machine/State.lean ====
section
/-!
DEFINITION. The state of one CORE instance: the seven registers of R10, and the interface the block is driven through (R30,
R31, R42, R60, R172), which is the operand spaces of the command being executed, who presented it, the commands still to be
issued in order, and the results returned so far. All of it is plain data.
-/

namespace Sys2Proof.Machine

/-- The phase register `PH` (R15); the codes 6 and 7 are written by no rule, so the type has six values. -/
inductive Phase where
  | idle
  | keyed
  | adDone
  | textDone
  | tagged
  | verified
  deriving DecidableEq, Repr

/-- The direction bit `DIR` (R16). -/
inductive Direction where
  | enc
  | dec
  deriving DecidableEq, Repr

/-- The values of `ERRC` (R19). -/
inductive Cause where
  | none
  | illegalCommand
  | sequence
  | length
  deriving DecidableEq, Repr

/-- Who presents a command word: the host its format-H commands, the controller the engine's format-E words (R60). -/
inductive Issuer where
  | host
  | controller
  deriving DecidableEq, Repr

/-- The input spaces of R30, each a byte sequence indexed from 0, and `din`, the word that carries the 1, 8 or 32
time-ordered bits of an engine operation (R35, R51); an operation of width `w` reads the low `w` bits of `din`. -/
structure Operands where
  key : List Byte
  nonce : List Byte
  adata : List Byte
  textIn : List Byte
  tagIn : List Byte
  din : Word32
  deriving DecidableEq, Repr

/-- One command to be issued: its word, who presents it and its operands (R42, R45). -/
structure Request where
  issuer : Issuer
  word : Byte
  ops : Operands
  deriving DecidableEq, Repr

/-- What a command returns: the output spaces of R30, the bit of `CMP`, and the result of an engine operation with its
width, carried in the low bits of a word (R35, R54). -/
inductive Result where
  /-- `TEXT_OUT` of `PT` (the ciphertext) or `CT` (the plaintext). -/
  | textOut (bytes : List Byte)
  /-- `TAG_OUT` of `FIN` when `DIR = ENC`. -/
  | tagOut (bytes : List Byte)
  /-- `ok` of `CMP`. -/
  | okOut (ok : Bool)
  /-- `dout` of an engine operation. -/
  | dout (width : Width) (word : Word32)
  deriving DecidableEq, Repr

/-- The state of one instance. The registers are `PH`, `DIR`, `ERR`, `ERRC`, `OK`, `TAG` and `S` (R10); they stand after the
interface fields, the two wide ones last, so that a comparison of two states meets the small fields first. -/
structure State where
  /-- The operand spaces of the command being executed (R30, R31). -/
  ops : Operands
  /-- Who presented the command being executed (R60). -/
  issuer : Issuer
  /-- The commands to be issued next, in issue order (R42). -/
  pending : List Request
  /-- Every result returned so far, in order (R172). -/
  results : List Result
  /-- `PH`, the phase register (R15). -/
  ph : Phase
  /-- `DIR`, the direction of the current message (R16). -/
  dir : Direction
  /-- `ERR`, the sticky fault flag (R19). -/
  err : Bool
  /-- `ERRC`, the cause of the first refused command (R19). -/
  errc : Cause
  /-- `OK`, the verification flag (R18). -/
  ok : Bool
  /-- `TAG`, 128 bits (R17). -/
  tag : TagWord
  /-- `S`, 293 bits (R11). -/
  S : Lfsr
  deriving DecidableEq, Repr

/-- No fault stops this machine: the only exception, `PreconditionViolation`, is a sticky flag with a next state (R140,
R148), and no operation traps or hangs (R95, R171). -/
inductive Fault where
  deriving DecidableEq, Repr

/-- Why a step has no meaning. -/
inductive Refusal where
  /-- Raised by no arm of this model: every instruction has its meaning. -/
  | notModelled (mnemonic : String)
  /-- Raised by `step` when the controller gives the engine a reserved word: a format-E one has no meaning to a model of the
  engine alone and is refused (R55), and so is 0x87 to 0xFF (U12). Safe: the controller never issues one (R109). -/
  | reservedEngineWord (cw : Byte)
  /-- Raised by `step` when the controller gives the engine an assigned format-H word. R51 and R60 give the engine format-E
  words only; that it is refused is the model's choice (log entry 6, DEDUCED). Safe: the controller never issues one
  (R109). -/
  | hostWordAtEngine (cw : Byte)
  deriving DecidableEq, Repr

/-- Operand spaces that hold nothing: no operand is retained between commands (R20, R21). -/
def Operands.empty : Operands :=
  { key := [], nonce := [], adata := [], textIn := [], tagIn := [], din := 0#32 }

/-- The state after reset (R23, R160): every register 0; no command is being executed and none has returned. -/
def State.reset : State :=
  { S := 0#293, tag := 0#128, ok := false, ph := .idle, dir := .enc, err := false, errc := .none,
    ops := Operands.empty, issuer := .host, pending := [], results := [] }

end Sys2Proof.Machine
end

