-- ==== Sys2Proof/Machine/Operands.lean ====
section
/-!
DEFINITION. Operand forms: bytes and words to time-ordered bits and back (R33, R34, R35), the bytes of the tag (R17), the
length checks (R143), and the presenting and releasing of a command's operands (R20, R30, R42). Every conversion takes the
bit order as an argument; the machine uses `Config.bitOrder`.
-/

namespace Sys2Proof.Machine

/-- The number of bits of an engine width (R51, R53). -/
def widthBits : Width → Nat
  | .bits1 => 1
  | .bits8 => 8
  | .bits32 => 32

/-- The time-ordered bits `m[0..w-1]` carried in the low `w` bits of a word (R35). -/
def wordBits {n : Nat} (o : BitOrder) (w : Nat) (W : BitVec n) : List Bool :=
  match o with
  | .lsbFirst => (List.range w).map fun j => W.getLsbD j
  | .msbFirst => (List.range w).map fun j => W.getLsbD (w - 1 - j)

/-- The word that carries a time-ordered bit sequence, the inverse of `wordBits` (R34, R35). -/
def bitsWord (o : BitOrder) (n : Nat) (q : List Bool) : BitVec n :=
  match o with
  | .lsbFirst => q.foldr (fun b acc => (acc <<< 1) ||| BitVec.setWidth n (BitVec.ofBool b)) 0#n
  | .msbFirst => q.foldl (fun acc b => (acc <<< 1) ||| BitVec.setWidth n (BitVec.ofBool b)) 0#n

/-- `bitsOf(B)` (R33): a byte is its own 8-bit word (R35). -/
def bitsOf (o : BitOrder) (B : Byte) : List Bool := wordBits o 8 B

/-- `bitsOfBytes(X)` (R34): byte 0 first. -/
def bitsOfBytes (o : BitOrder) (X : List Byte) : List Bool := X.flatMap (bitsOf o)

/-- `packBytes(q)` (R34): `bitsOf(Y[i]) = q[8i .. 8i+7]`. R34 defines it for lengths `8n` only, and every use has such a
length. -/
def packBytes (o : BitOrder) : List Bool → List Byte
  | b0 :: b1 :: b2 :: b3 :: b4 :: b5 :: b6 :: b7 :: rest =>
    bitsWord o 8 [b0, b1, b2, b3, b4, b5, b6, b7] :: packBytes o rest
  | _ => []

/-- The 32-bit word of four bytes (R35): little-endian under `LSB_FIRST`, big-endian under `MSB_FIRST`. -/
def bytesWord (o : BitOrder) (x0 x1 x2 x3 : Byte) : Word32 :=
  match o with
  | .lsbFirst => x3 ++ x2 ++ x1 ++ x0
  | .msbFirst => x0 ++ x1 ++ x2 ++ x3

/-- The four bytes of a word in ascending index order, the inverse of `bytesWord` (R35). -/
def wordBytes (o : BitOrder) (W : Word32) : List Byte :=
  match o with
  | .lsbFirst => [W.extractLsb' 0 8, W.extractLsb' 8 8, W.extractLsb' 16 8, W.extractLsb' 24 8]
  | .msbFirst => [W.extractLsb' 24 8, W.extractLsb' 16 8, W.extractLsb' 8 8, W.extractLsb' 0 8]

/-- `TAG[i]` (R17). -/
def tagByte (t : TagWord) (i : Nat) : Byte := t.extractLsb' (8 * i) 8

/-- `TAG[0..15]` as a byte sequence (R17). -/
def tagBytes (t : TagWord) : List Byte := (List.range Config.tagBytes).map (tagByte t)

/-- The tag register whose bytes are the given ones, byte 0 as `TAG[0]` (R17). -/
def tagOfBytes (bs : List Byte) : TagWord :=
  bs.foldr (fun b acc => (acc <<< 8) ||| BitVec.setWidth 128 b) 0#128

/-- `MemRead(sp, i, 1)`: the byte at index `i` of an operand space (R8). Every index used is below the space's length. -/
def memRead (sp : List Byte) (i : Nat) : Byte := sp.getD i 0#8

/-- `|K| = 16` and `|N| = 16`, what `INIT` needs (R143). -/
def initLengthsOk (x : Operands) : Bool :=
  x.key.length == Config.keyBytes && x.nonce.length == Config.nonceBytes

/-- `|T| = 16`, what `CMP` needs (R143). -/
def cmpLengthOk (x : Operands) : Bool := x.tagIn.length == Config.tagBytes

/-- The length of `A`, `P` or `C` does not exceed `LEN_MAX` (R143); always so while `LEN_MAX` is left open (R32). -/
def withinLenMax (n : Nat) : Bool :=
  match Config.lenMax with
  | none => true
  | some m => n ≤ m

/-- The command is presented: it leaves the list of commands to come and its operands stand in the spaces (R30, R42). -/
def State.present (s : State) (r : Request) (rest : List Request) : State :=
  { s with ops := r.ops, issuer := r.issuer, pending := rest }

/-- The command has returned: no operand is retained (R20, R21). -/
def State.release (s : State) : State :=
  { s with ops := Operands.empty, issuer := .host }

/-- The well-sized operands that `withFetchWord` places beside a word: 16 zero bytes in each fixed-length space, the
empty sequence in the others, a zero engine word. -/
def fetchOperands : Operands :=
  { key := List.replicate 16 0#8, nonce := List.replicate 16 0#8, adata := [], textIn := [],
    tagIn := List.replicate 16 0#8, din := 0#32 }

/-- Who presents a word of the given format: format H the host, format E the controller (R60). -/
def issuerOf (cw : Byte) : Issuer := if cw.getLsbD 7 then .host else .controller

end Sys2Proof.Machine
end

