-- ==== Sys2Proof/Machine/Flags.lean ====
section
/-!
DEFINITION. The control and status bits: the codes of `PH`, `DIR` and `ERRC`, the status view (R22), and the comparator's
accumulator, which gives `OK` (R120, R121). The data path has no condition codes (R18).
-/

namespace Sys2Proof.Machine

/-- The value of `PH` (R15). -/
def phaseCode : Phase → BitVec 3
  | .idle => 0#3
  | .keyed => 1#3
  | .adDone => 2#3
  | .textDone => 3#3
  | .tagged => 4#3
  | .verified => 5#3

/-- The value of `DIR` (R16). -/
def directionCode : Direction → BitVec 1
  | .enc => 0#1
  | .dec => 1#1

/-- The value of `ERRC` (R19). -/
def causeCode : Cause → BitVec 2
  | .none => 0#2
  | .illegalCommand => 1#2
  | .sequence => 2#2
  | .length => 3#2

/-- `STATUS = { ERR, ERRC[1:0], OK, DIR, PH[2:0] }`, what the host reads between commands (R22). -/
def State.status (s : State) : Byte :=
  BitVec.ofBool s.err ++ causeCode s.errc ++ BitVec.ofBool s.ok ++ directionCode s.dir ++ phaseCode s.ph

/-- `DIFF` after all 16 iterations of `CMP` (R120): bitwise XOR, accumulated by bitwise OR, no early exit (R121). -/
def tagDifference (T : List Byte) (t : TagWord) : Byte :=
  (List.range 16).foldl (fun diff i => diff ||| (memRead T i ^^^ tagByte t i)) 0x00#8

/-- `OK`: the one test after the loop (R120). -/
def tagMatches (T : List Byte) (t : TagWord) : Bool := tagDifference T t == 0x00#8

end Sys2Proof.Machine
end

