-- ==== Sys2Proof/Machine/Ops.lean ====
section
/-!
DEFINITION. The named operations every instruction is made of: reading and writing one bit of `S` (R8), the combinational
network (R70 to R74), the single-bit step and its iteration (R80 to R91), the two phase helpers (R100, R107), taking the
one exception and leaving it (R140 to R150), and the admission of a host command (R142, R148).
-/

namespace Sys2Proof.Machine

/-! ### One bit of `S` -/

/-- `s[i]` (R8). -/
def rbit (S : Lfsr) (i : Nat) : Bool := S.getLsbD i

/-- `s[i] <- v` (R8). -/
def writeBit (S : Lfsr) (i : Nat) (v : Bool) : Lfsr :=
  if v then S ||| (1#293 <<< i) else S &&& ~~~(1#293 <<< i)

/-- `k S`, with the value of `S` worked out before `k` looks at it: evaluation of a long run then goes one step at a time. -/
def settling {α : Type} (S : Lfsr) (k : Lfsr → α) : α :=
  match S.toNat with
  | 0 => k S
  | _ + 1 => k S

/-! ### The combinational network -/

/-- `maj(x, y, z)` (R70). -/
def maj (x y z : Bool) : Bool := (x && y) ^^ (x && z) ^^ (y && z)

/-- `ch(x, y, z)` (R71): `x` is the selector. -/
def ch (x y z : Bool) : Bool := (x && y) ^^ (!x && z)

/-- `maj` on `n` independent lanes (R72). -/
def majLanes {n : Nat} (x y z : BitVec n) : BitVec n := (x &&& y) ^^^ (x &&& z) ^^^ (y &&& z)

/-- `ch` on `n` independent lanes (R72). -/
def chLanes {n : Nat} (x y z : BitVec n) : BitVec n := (x &&& y) ^^^ (~~~x &&& z)

/-- `ksg128(S)` (R73). -/
def ksg128 (S : Lfsr) : Bool :=
  rbit S 12 ^^ rbit S 154 ^^ maj (rbit S 235) (rbit S 61) (rbit S 193) ^^ ch (rbit S 230) (rbit S 111) (rbit S 66)

/-- `fbk128(S, ca, cb, ks)` (R74). -/
def fbk128 (S : Lfsr) (ca cb ks : Bool) : Bool :=
  rbit S 0 ^^ !(rbit S 107) ^^ maj (rbit S 244) (rbit S 23) (rbit S 160) ^^ (ca && rbit S 196) ^^ (cb && ks)

/-! ### The single-bit step -/

/-- Sub-step 1, the six tap XORs in the order written (R80). -/
def tapXors (S : Lfsr) : Lfsr :=
  let S := writeBit S 289 (rbit S 289 ^^ rbit S 235 ^^ rbit S 230)
  let S := writeBit S 230 (rbit S 230 ^^ rbit S 196 ^^ rbit S 193)
  let S := writeBit S 193 (rbit S 193 ^^ rbit S 160 ^^ rbit S 154)
  let S := writeBit S 154 (rbit S 154 ^^ rbit S 111 ^^ rbit S 107)
  let S := writeBit S 107 (rbit S 107 ^^ rbit S 66 ^^ rbit S 61)
  writeBit S 61 (rbit S 61 ^^ rbit S 23 ^^ rbit S 0)

/-- Sub-step 4, the shift: every bit moves one index down, `s[0]` is lost, `s[292]` receives `v` (R83). -/
def shiftIn (S : Lfsr) (v : Bool) : Lfsr := (BitVec.cons v S).extractLsb' 1 293

/-- `Step(m, ca, cb)` (R85): the returned `ks` and the next `S`. -/
def stepBit (m ca cb : Bool) (S : Lfsr) : Bool × Lfsr :=
  let T := tapXors S
  let ks := ksg128 T
  let fb := fbk128 T ca cb ks
  (ks, shiftIn T (fb ^^ m))

/-- `StepD(c, ca, cb)` (R86): the returned `p` and the next `S`; `p`, not `c`, enters the register. -/
def stepBitD (c ca cb : Bool) (S : Lfsr) : Bool × Lfsr :=
  let T := tapXors S
  let ks := ksg128 T
  let fb := fbk128 T ca cb ks
  let p := ks ^^ c
  (p, shiftIn T (fb ^^ p))

/-- The single-bit step in the given form (R85, R86). -/
def stepForm (f : Form) (b ca cb : Bool) (S : Lfsr) : Bool × Lfsr :=
  match f with
  | .encrypt => stepBit b ca cb S
  | .decrypt => stepBitD b ca cb S

/-- The single-bit step repeated over a time-ordered bit sequence with one control pair, `q[0]` first: the returned bits in
order and the last `S` (R87 to R91). -/
def stepBits (f : Form) (ca cb : Bool) : List Bool → Lfsr → List Bool × Lfsr
  | [], S => ([], S)
  | b :: q, S =>
    let r := stepForm f b ca cb S
    let t := settling r.2 fun T => stepBits f ca cb q T
    (r.1 :: t.1, t.2)

/-! ### Helpers of the phases -/

/-- `ABSORB(q, ca, cb)` (R100): the returned bits are dropped. -/
def absorb (q : List Bool) (ca cb : Bool) (S : Lfsr) : Lfsr := (stepBits .encrypt ca cb q S).2

/-- `0^n`. -/
def zeros (n : Nat) : List Bool := List.replicate n false

/-- `TRAILER(cb)` (R107). -/
def trailer (cb : Bool) (S : Lfsr) : Lfsr :=
  absorb (zeros 128) false cb (absorb (zeros 127) true cb (absorb [true] true cb S))

/-! ### The exception -/

/-- Taking the exception, `raise PreconditionViolation(cause)` (R148, R149): two writes and nothing else. -/
def State.raise (s : State) (c : Cause) : State := { s with err := true, errc := c }

/-- Leaving the faulted state, which is what `CLR` does (R122, R150): every register at its reset value. -/
def State.clearAll (s : State) : State :=
  { s with S := 0#293, tag := 0#128, ok := false, dir := .enc, err := false, errc := .none, ph := .idle }

/-- Reset, applied between two commands (R160): it leaves what `CLR` leaves. No command of the host is a reset: whatever
drives the reset input applies this between two steps. -/
def State.applyReset (s : State) : State := s.clearAll

/-- The host presents a word that selects no host command (R141): the exception, unless a fault stands already (R144). -/
def State.illegalCommand (s : State) : State := if s.err then s else s.raise .illegalCommand

/-- The checks of R148 on a host command other than `CLR`, in their order: a standing fault, the admission condition of
R142, the operand lengths of R143. `done` is the state the command's own rule gives. -/
def hostCommand (admitted lengthsOk : Bool) (done s : State) : Host.Outcome State Fault Refusal :=
  if s.err then .next s
  else if !admitted then .next (s.raise .sequence)
  else if !lengthsOk then .next (s.raise .length)
  else .next done

/-- A word that decodes to no operation. From the host: R141. At the engine: no meaning (R55, U12). -/
def undecodable (cw : Byte) (s : State) : Host.Outcome State Fault Refusal :=
  match s.issuer with
  | .host => .next s.illegalCommand
  | .controller => .refused (.reservedEngineWord cw)

/-- The engine is given format-E words only (R51, R60): a format-H word presented by the controller has no meaning, which is
the model's choice (log entry 6, DEDUCED). -/
def hostWordAtEngine (i : Instr) (s : State) : Bool := s.issuer == .controller && !i.isFormatE

/-- The command has returned: its operands are released (R20, R21). -/
def releaseOutcome : Host.Outcome State Fault Refusal → Host.Outcome State Fault Refusal
  | .next s => .next s.release
  | .fault f => .fault f
  | .refused r => .refused r

end Sys2Proof.Machine
end

