-- ==== Sys2Proof/Machine/Phases.lean ====
section
/-!
DEFINITION. The AEAD phase controller: `INIT`, `AD`, `PT`, `CT`, `FIN` (R101 to R106), written bit by bit as the rules are.
The controller's own issue schedule (R109) stands in `Sys2Proof/Machine/Schedule.lean`.
-/

namespace Sys2Proof.Machine

/-- `q_init[0..1791]` (R102): the key, the nonce, the first key bit complemented, then 1535 key bits read cyclically from
position 1. -/
def qInit (o : BitOrder) (K N : List Byte) : List Bool :=
  let k := bitsOfBytes o K
  let n := bitsOfBytes o N
  k ++ n ++ [!(k.getD 0 false)] ++ (List.range 1535).map fun i => k.getD ((i + 1) % 128) false

/-- `S` after `INIT` (R101). -/
def initS (o : BitOrder) (K N : List Byte) : Lfsr := absorb (qInit o K N) true true 0#293

/-- `S` after `AD` (R103). -/
def adS (o : BitOrder) (A : List Byte) (S : Lfsr) : Lfsr := trailer true (absorb (bitsOfBytes o A) true true S)

/-- `C` and the next `S` of `PT` (R104). -/
def ptText (o : BitOrder) (P : List Byte) (S : Lfsr) : List Byte × Lfsr :=
  let p := bitsOfBytes o P
  let r := stepBits .encrypt true false p S
  (packBytes o (List.zipWith (fun b ks => b ^^ ks) p r.1), trailer false r.2)

/-- `P` and the next `S` of `CT` (R105). -/
def ctText (o : BitOrder) (C : List Byte) (S : Lfsr) : List Byte × Lfsr :=
  let r := stepBits .decrypt true false (bitsOfBytes o C) S
  (packBytes o r.1, trailer false r.2)

/-- The 16 tag bytes of `FIN` (R106): the keystream of the last 128 of its 768 steps. -/
def finTag (o : BitOrder) (S : Lfsr) : List Byte :=
  packBytes o (stepBits .encrypt true true (zeros 128) (absorb (zeros 640) true true S)).1

/-- `INIT K, N` (R101): admitted in any phase. -/
def execInit (s : State) : Host.Outcome State Fault Refusal :=
  hostCommand true (initLengthsOk s.ops)
    { s with
      S := initS Config.bitOrder s.ops.key s.ops.nonce, tag := 0#128, ok := false, dir := .enc, ph := .keyed } s

/-- `AD A` (R103). -/
def execAd (s : State) : Host.Outcome State Fault Refusal :=
  hostCommand (s.ph == .keyed) (withinLenMax s.ops.adata.length)
    { s with S := adS Config.bitOrder s.ops.adata s.S, ph := .adDone } s

/-- `PT P -> C` (R104). -/
def execPt (s : State) : Host.Outcome State Fault Refusal :=
  hostCommand (s.ph == .adDone) (withinLenMax s.ops.textIn.length)
    (let r := ptText Config.bitOrder s.ops.textIn s.S
     { s with S := r.2, dir := .enc, ph := .textDone, results := s.results ++ [.textOut r.1] }) s

/-- `CT C -> P` (R105). -/
def execCt (s : State) : Host.Outcome State Fault Refusal :=
  hostCommand (s.ph == .adDone) (withinLenMax s.ops.textIn.length)
    (let r := ctText Config.bitOrder s.ops.textIn s.S
     { s with S := r.2, dir := .dec, ph := .textDone, results := s.results ++ [.textOut r.1] }) s

/-- What `FIN` returns: `TAG` when `DIR = ENC`, nothing when `DIR = DEC` (R106, R16). -/
def finResult (d : Direction) (T : List Byte) : List Result :=
  match d with
  | .enc => [.tagOut T]
  | .dec => []

/-- `FIN -> T` (R106). -/
def execFin (s : State) : Host.Outcome State Fault Refusal :=
  hostCommand (s.ph == .textDone) true
    (let T := finTag Config.bitOrder s.S
     { s with S := 0#293, tag := tagOfBytes T, ph := .tagged, results := s.results ++ finResult s.dir T }) s

end Sys2Proof.Machine
end

