-- ==== Sys2Proof/Machine/Api.lean ====
section
/-!
DEFINITION. The tag comparator `CMP` (R120), the housekeeping command `CLR` (R122), and the two pseudo-instructions of the
AEAD interface, `ENCRYPT` and `DECRYPT`, as the command sequences they expand to (R59, R123, R124) and as the functions
DOC0 gives them.
-/

namespace Sys2Proof.Machine

/-- `CMP T -> ok` (R120): one-shot, since `TAG` is zeroized after the test. -/
def execCmp (s : State) : Host.Outcome State Fault Refusal :=
  hostCommand (s.ph == .tagged && s.dir == .dec) (cmpLengthOk s.ops)
    (let v := tagMatches s.ops.tagIn s.tag
     { s with ok := v, tag := 0#128, ph := .verified, results := s.results ++ [.okOut v] }) s

/-- `CLR` (R122): never refused. -/
def execClr (s : State) : Host.Outcome State Fault Refusal := .next s.clearAll

/-- A host command with its operands. -/
def hostRequest (i : Instr) (x : Operands) : Request := { issuer := .host, word := encode i, ops := x }

/-- The commands `ENCRYPT` and `DECRYPT` both begin with: `INIT K, N ; AD A` (R59). -/
def openMessage (K N A : List Byte) : List Request :=
  [hostRequest .init { Operands.empty with key := K, nonce := N }, hostRequest .ad { Operands.empty with adata := A }]

/-- `ENCRYPT K, N, A, P -> C, T` (R123). -/
def encryptCommands (K N A P : List Byte) : List Request :=
  openMessage K N A ++
    [hostRequest .pt { Operands.empty with textIn := P }, hostRequest .fin Operands.empty,
     hostRequest .clr Operands.empty]

/-- `DECRYPT K, N, A, C, T -> P, ok` (R124). -/
def decryptCommands (K N A C T : List Byte) : List Request :=
  openMessage K N A ++
    [hostRequest .ct { Operands.empty with textIn := C }, hostRequest .fin Operands.empty,
     hostRequest .cmp { Operands.empty with tagIn := T }, hostRequest .clr Operands.empty]

/-- `encrypt(K, N, A, P) → (C, T)` as a function of its operands (R123). -/
def encryptValue (o : BitOrder) (K N A P : List Byte) : List Byte × List Byte :=
  let r := ptText o P (adS o A (initS o K N))
  (r.1, finTag o r.2)

/-- `decrypt(K, N, A, C, T) → (P, v)` as a function of its operands (R124). -/
def decryptValue (o : BitOrder) (K N A C T : List Byte) : List Byte × Bool :=
  let r := ctText o C (adS o A (initS o K N))
  (r.1, tagMatches T (tagOfBytes (finTag o r.2)))

end Sys2Proof.Machine
end

