-- ==== Sys2Proof/Machine/Engine.lean ====
section
/-!
DEFINITION. The state-update engine: `STEP1`, `STEP1D`, `STEP8`, `STEP8D`, `STEP32`, `STEP32D` (R85 to R90). Each is the
single-bit step repeated over the bits its operand word carries. Issued by the controller it runs, whatever the state
(R95); presented by the host it is refused with `ILLEGAL_COMMAND` (R60, R141).
-/

namespace Sys2Proof.Machine

/-- `dout[0..n-1]` and the next `S` of an engine operation of the given form and width (R87 to R91). -/
def engineStep (f : Form) (w : Width) (ca cb : Bool) (din : Word32) (S : Lfsr) : Word32 × Lfsr :=
  let r := stepBits f ca cb (wordBits Config.bitOrder (widthBits w) din) S
  (BitVec.setWidth 32 (bitsWord Config.bitOrder (widthBits w) r.1), r.2)

/-- What an engine operation does when it runs: it writes `S` and returns `dout`, no other register and no flag. -/
def State.engineRun (s : State) (f : Form) (w : Width) (ca cb : Bool) : State :=
  let r := engineStep f w ca cb s.ops.din s.S
  { s with S := r.2, results := s.results ++ [.dout w r.1] }

/-- An engine operation by who presents it (R60, R141). -/
def engineOperation (f : Form) (w : Width) (ca cb : Bool) (s : State) : Host.Outcome State Fault Refusal :=
  match s.issuer with
  | .host => .next s.illegalCommand
  | .controller => .next (s.engineRun f w ca cb)

/-- `STEP1 ca, cb, m -> ks` (R85). -/
def execStep1 (ca cb : Bool) (s : State) : Host.Outcome State Fault Refusal := engineOperation .encrypt .bits1 ca cb s

/-- `STEP1D ca, cb, c -> p` (R86). -/
def execStep1d (ca cb : Bool) (s : State) : Host.Outcome State Fault Refusal := engineOperation .decrypt .bits1 ca cb s

/-- `STEP8 ca, cb, M -> KS` (R87). -/
def execStep8 (ca cb : Bool) (s : State) : Host.Outcome State Fault Refusal := engineOperation .encrypt .bits8 ca cb s

/-- `STEP8D ca, cb, C -> P` (R88). -/
def execStep8d (ca cb : Bool) (s : State) : Host.Outcome State Fault Refusal := engineOperation .decrypt .bits8 ca cb s

/-- `STEP32 ca, cb, M -> KS` (R89). -/
def execStep32 (ca cb : Bool) (s : State) : Host.Outcome State Fault Refusal := engineOperation .encrypt .bits32 ca cb s

/-- `STEP32D ca, cb, C -> P` (R90). -/
def execStep32d (ca cb : Bool) (s : State) : Host.Outcome State Fault Refusal := engineOperation .decrypt .bits32 ca cb s

end Sys2Proof.Machine
end

