-- ==== Sys2Proof/Machine/Dispatch.lean ====
section
/-!
DEFINITION. One arm per operation of R54.
-/

namespace Sys2Proof.Machine

def exec (i : Instr) (s : State) : Host.Outcome State Fault Refusal :=
  match i with
  | .step1 ca cb => Sys2Proof.Machine.execStep1 ca cb s
  | .step1d ca cb => Sys2Proof.Machine.execStep1d ca cb s
  | .step8 ca cb => Sys2Proof.Machine.execStep8 ca cb s
  | .step8d ca cb => Sys2Proof.Machine.execStep8d ca cb s
  | .step32 ca cb => Sys2Proof.Machine.execStep32 ca cb s
  | .step32d ca cb => Sys2Proof.Machine.execStep32d ca cb s
  | .clr => Sys2Proof.Machine.execClr s
  | .init => Sys2Proof.Machine.execInit s
  | .ad => Sys2Proof.Machine.execAd s
  | .pt => Sys2Proof.Machine.execPt s
  | .ct => Sys2Proof.Machine.execCt s
  | .fin => Sys2Proof.Machine.execFin s
  | .cmp => Sys2Proof.Machine.execCmp s

end Sys2Proof.Machine
end

