-- ==== Sys2Proof/Machine/Issue.lean ====
section
/-!
DEFINITION. Issuing one command word (R148, R55), and a request that carries a table word to `step`.
-/

namespace Sys2Proof.Machine

/-- The command word `cw` as presented in `s` (R148, R55). -/
def issueWord (cw : Byte) (s : State) : Host.Outcome State Fault Refusal :=
  match decode cw with
  | .ok i => if hostWordAtEngine i s then .refused (.hostWordAtEngine cw) else exec i s
  | .error _ => undecodable cw s

/-- The request that presents the word whose bits are `w`, by whoever issues words of its format (R60), with well-sized
operands. -/
def fetchRequest (nbits w : Nat) : Request :=
  let cw : Byte := BitVec.ofNat 8 (w % 2 ^ nbits)
  { issuer := issuerOf cw, word := cw, ops := fetchOperands }

end Sys2Proof.Machine
end

