-- ==== Sys2Proof/Machine/Step.lean ====
section
/-!
DEFINITION. One step: the next command to be issued is presented, decoded and executed to its end (R42, R148). With no
command to come the block holds its state (R157, R161).
-/

namespace Sys2Proof.Machine

/-- One step of the machine: one command (R42). -/
def step (s : State) : Host.Outcome State Fault Refusal :=
  match s.pending with
  | [] => .next s
  | r :: rest => releaseOutcome (issueWord r.word (s.present r rest))

/-- The state in which the next command to be issued is the word whose bits are `w`. -/
def State.withFetchWord (s : State) (nbits w : Nat) : State :=
  { s with pending := fetchRequest nbits w :: s.pending }

/-- `n` steps: the commands take effect in issue order (R42). -/
def runSteps : Nat → State → Host.Outcome State Fault Refusal
  | 0, s => .next s
  | n + 1, s =>
    match step s with
    | .next s' => runSteps n s'
    | .fault f => .fault f
    | .refused r => .refused r

end Sys2Proof.Machine
end

