-- ==== Sys2Proof/Machine/Instances.lean ====
section
/-!
DEFINITION. Several instances (R47, R155) and the batch contract (R127). Instances share nothing: an event of one
touches its own state alone. The batch adapter is outside the CORE (R4, R127) and adds no rule to it.
-/

namespace Sys2Proof.Machine

/-- The states of `N_INSTANCES` instances (R5, R155). -/
abbrev Instances := List State

/-- `n` instances, each in the reset state (R155). -/
def startInstances (n : Nat := Config.nInstances) : Instances := List.replicate n State.reset

/-- What can happen to one instance: it issues its next command, or reset is applied to it between two commands (R160). -/
inductive InstanceEvent where
  | command
  | reset
  deriving DecidableEq, Repr

/-- The instance after one event of its own. One whose step has no meaning stays as it is. -/
def instanceAfter (e : InstanceEvent) (s : State) : State :=
  match e with
  | .reset => s.applyReset
  | .command =>
    match step s with
    | .next s' => s'
    | .fault _ => s
    | .refused _ => s

/-- The instance after a list of events of its own, in order. -/
def runInstance (events : List InstanceEvent) (s : State) : State := events.foldl (fun t e => instanceAfter e t) s

/-- An event of instance `k`; the others are not touched (R47), and an index that names no instance does nothing. -/
def stepInstance (k : Nat) (e : InstanceEvent) (xs : Instances) : Instances := xs.modify k (instanceAfter e)

/-- A schedule of the instances: their events in any order, each instance reset and run independently (R47, R155). -/
def runInstances (schedule : List (Nat × InstanceEvent)) (xs : Instances) : Instances :=
  schedule.foldl (fun ys ke => stepInstance ke.1 ke.2 ys) xs

/-- The events of instance `k` in a schedule, in order. -/
def eventsOf (k : Nat) (schedule : List (Nat × InstanceEvent)) : List InstanceEvent :=
  (schedule.filter (·.1 == k)).map Prod.snd

/-- The slice of width `w` at index `i` (R127). DESIGN CHOICE (log entry 19): of an array too short for it the slice is what
there is, shorter or empty. The spec leaves a mis-sized array to the adapter outside the block (R143, U8). -/
def slice (X : List Byte) (w i : Nat) : List Byte := (X.drop (i * w)).take w

/-- `batch_encrypt` (R127): each slice is fed to one independent call of the scalar interface. On mis-sized arrays: log
entry 19. -/
def batchEncrypt (o : BitOrder) (n t d : Nat) (keys nonces texts ads : List Byte) : List Byte × List Byte :=
  let r := (List.range n).map fun i => encryptValue o (slice keys 16 i) (slice nonces 16 i) (slice ads d i) (slice texts t i)
  ((r.map Prod.fst).flatten, (r.map Prod.snd).flatten)

/-- `batch_decrypt` (R127): one `ok` flag for each element. On mis-sized arrays: log entry 19. -/
def batchDecrypt (o : BitOrder) (n t d : Nat) (keys nonces tags texts ads : List Byte) : List Byte × List Bool :=
  let r := (List.range n).map fun i =>
    decryptValue o (slice keys 16 i) (slice nonces 16 i) (slice ads d i) (slice texts t i) (slice tags 16 i)
  ((r.map Prod.fst).flatten, r.map Prod.snd)

end Sys2Proof.Machine
end

