-- ==== Sys2Proof/Machine/Schedule.lean ====
section
/-!
DEFINITION. The controller's issue schedule (R109): the format-E words, each with its operand word, by which the controller
carries out each host command, and what the engine answers to them. The meanings of `INIT` to `FIN` are written bit by bit
(R101 to R106); that this schedule gives the same results is a statement about both (R91, R109).
-/

namespace Sys2Proof.Machine

/-- One engine operation the controller issues: a format-E word and its operand word. -/
structure EngineOp where
  word : Byte
  din : Word32
  deriving DecidableEq, Repr

/-- `FIRST`: the word whose only set time-ordered bit is bit 0 (R109). -/
def firstWord (o : BitOrder) : Word32 := bitsWord o 32 (true :: zeros 31)

/-- The bytes `X` as 32-bit words, four bytes a word from index 0 upward, and the tail of 0 to 3 bytes (R37, R109). -/
def cutWords (o : BitOrder) : List Byte → List Word32 × List Byte
  | x0 :: x1 :: x2 :: x3 :: rest =>
    let t := cutWords o rest
    (bytesWord o x0 x1 x2 x3 :: t.1, t.2)
  | tail => ([], tail)

/-- The data operations of a phase: `⌊n/4⌋` words with `cw32`, then the tail bytes with `cw8` (R109). -/
def dataSchedule (o : BitOrder) (cw32 cw8 : Byte) (X : List Byte) : List EngineOp :=
  let c := cutWords o X
  c.1.map (fun W => { word := cw32, din := W }) ++ c.2.map (fun B => { word := cw8, din := BitVec.setWidth 32 B })

/-- The 32-bit operations of `TRAILER(cb)` (R107, R109). -/
def trailerSchedule (o : BitOrder) (hi lo : Byte) : List EngineOp :=
  [firstWord o, 0#32, 0#32, 0#32].map (fun W => { word := hi, din := W }) ++
    List.replicate 4 { word := lo, din := 0#32 }

/-- `INIT`: 56 operations `STEP32 1,1` (R109). -/
def initSchedule (o : BitOrder) (K N : List Byte) : List EngineOp :=
  let kw := (cutWords o K).1
  let nw := (cutWords o N).1
  let complemented := (kw.take 1).map (fun W => W ^^^ firstWord o) ++ kw.drop 1
  (kw ++ nw ++ complemented ++ (List.replicate 11 kw).flatten).map fun W => { word := 0x4C#8, din := W }

/-- `AD` (R109). -/
def adSchedule (o : BitOrder) (A : List Byte) : List EngineOp :=
  dataSchedule o 0x4C#8 0x2C#8 A ++ trailerSchedule o 0x4C#8 0x44#8

/-- `PT` (R109). -/
def ptSchedule (o : BitOrder) (P : List Byte) : List EngineOp :=
  dataSchedule o 0x48#8 0x28#8 P ++ trailerSchedule o 0x48#8 0x40#8

/-- `CT` (R109): decrypt form for the data, encrypt form for the trailer (R107). -/
def ctSchedule (o : BitOrder) (C : List Byte) : List EngineOp :=
  dataSchedule o 0x58#8 0x38#8 C ++ trailerSchedule o 0x48#8 0x40#8

/-- `FIN` (R109): the last four results form the tag. -/
def finSchedule : List EngineOp := List.replicate 24 { word := 0x4C#8, din := 0#32 }

/-- What the engine answers to one operation: the bytes of the result (four of a 32-bit operation, one of an 8-bit one, a
byte that holds the bit of a 1-bit one) and the next `S`. A word that is no format-E operation has no meaning: a reserved
one by R55 and U12, a format-H one by the model's choice (log entry 6). -/
def engineAnswer (o : BitOrder) (op : EngineOp) (S : Lfsr) : Option (List Byte × Lfsr) :=
  match decode op.word with
  | .ok (.step1 ca cb) => some (byteAnswer (engineStep .encrypt .bits1 ca cb op.din S))
  | .ok (.step1d ca cb) => some (byteAnswer (engineStep .decrypt .bits1 ca cb op.din S))
  | .ok (.step8 ca cb) => some (byteAnswer (engineStep .encrypt .bits8 ca cb op.din S))
  | .ok (.step8d ca cb) => some (byteAnswer (engineStep .decrypt .bits8 ca cb op.din S))
  | .ok (.step32 ca cb) => some (wordAnswer (engineStep .encrypt .bits32 ca cb op.din S))
  | .ok (.step32d ca cb) => some (wordAnswer (engineStep .decrypt .bits32 ca cb op.din S))
  | .ok .clr => none
  | .ok .init => none
  | .ok .ad => none
  | .ok .pt => none
  | .ok .ct => none
  | .ok .fin => none
  | .ok .cmp => none
  | .error _ => none
where
  /-- A result of 1 or 8 bits as a byte. -/
  byteAnswer (r : Word32 × Lfsr) : List Byte × Lfsr := ([BitVec.setWidth 8 r.1], r.2)
  /-- A result of 32 bits as its four bytes. -/
  wordAnswer (r : Word32 × Lfsr) : List Byte × Lfsr := (wordBytes o r.1, r.2)

/-- The engine runs a schedule, each operation on the `S` the previous one left (R41): all result bytes in order. -/
def runEngine (o : BitOrder) : List EngineOp → Lfsr → Option (List Byte × Lfsr)
  | [], S => some ([], S)
  | op :: rest, S =>
    match engineAnswer o op S with
    | none => none
    | some r =>
      match runEngine o rest r.2 with
      | none => none
      | some t => some (r.1 ++ t.1, t.2)

/-- How many operations of a schedule carry the word `cw` (R109). -/
def countWord (cw : Byte) (ops : List EngineOp) : Nat := ops.countP fun op => op.word == cw

/-- The engine operations of one encryption, command by command (R109). -/
def messageSchedule (o : BitOrder) (K N A P : List Byte) : List EngineOp :=
  initSchedule o K N ++ adSchedule o A ++ ptSchedule o P ++ finSchedule

/-- The engine operations of one decryption, command by command (R109); `CMP` issues none. -/
def decryptionSchedule (o : BitOrder) (K N A C : List Byte) : List EngineOp :=
  initSchedule o K N ++ adSchedule o A ++ ctSchedule o C ++ finSchedule

end Sys2Proof.Machine
end

