-- ==== Sys2Proof/Machine/Views.lean ====
section
/-!
DEFINITION. Two other ways to look at the shift register that the spec requires to agree with the bit form: the packed view
of seven segments (R12) and the word-parallel form of a bulk operation (R92). The machine itself runs on the bit form.
-/

namespace Sys2Proof.Machine

/-! ### The packed view -/

/-- The seven segments, `LFSR[0]` to `LFSR[6]`; bit `j` of `LFSR[k]` is `s[SEG_BASE[k] + j]` (R12). -/
structure Segments where
  lfsr0 : BitVec 61
  lfsr1 : BitVec 46
  lfsr2 : BitVec 47
  lfsr3 : BitVec 39
  lfsr4 : BitVec 37
  lfsr5 : BitVec 59
  lfsr6 : BitVec 4
  deriving DecidableEq, Repr

/-- The packed view of `S` (R12). -/
def toSegments (S : Lfsr) : Segments :=
  { lfsr0 := S.extractLsb' 0 61, lfsr1 := S.extractLsb' 61 46, lfsr2 := S.extractLsb' 107 47,
    lfsr3 := S.extractLsb' 154 39, lfsr4 := S.extractLsb' 193 37, lfsr5 := S.extractLsb' 230 59,
    lfsr6 := S.extractLsb' 289 4 }

/-- The register whose packed view is given (R12). -/
def ofSegments (g : Segments) : Lfsr :=
  g.lfsr6 ++ g.lfsr5 ++ g.lfsr4 ++ g.lfsr3 ++ g.lfsr2 ++ g.lfsr1 ++ g.lfsr0

/-- Bit `j` of `LFSR[k]` (R12). -/
def segmentBit (g : Segments) (k j : Nat) : Bool :=
  match k with
  | 0 => g.lfsr0.getLsbD j
  | 1 => g.lfsr1.getLsbD j
  | 2 => g.lfsr2.getLsbD j
  | 3 => g.lfsr3.getLsbD j
  | 4 => g.lfsr4.getLsbD j
  | 5 => g.lfsr5.getLsbD j
  | 6 => g.lfsr6.getLsbD j
  | _ => false

/-- Flips bit `j` of a vector when `v` is 1: `x[j] <- x[j] ⊕ v`. -/
def flipBit {n : Nat} (x : BitVec n) (j : Nat) (v : Bool) : BitVec n := x ^^^ (BitVec.setWidth n (BitVec.ofBool v) <<< j)

/-- The tap XORs on the packed view (R12, R80): bit 0 of segments 6 to 1 receives the XOR of the next-older segment's bit 0
and one inner tap of it. -/
def tapXorsPacked (g : Segments) : Segments :=
  let g := { g with lfsr6 := flipBit g.lfsr6 0 (g.lfsr5.getLsbD 5 ^^ g.lfsr5.getLsbD 0) }
  let g := { g with lfsr5 := flipBit g.lfsr5 0 (g.lfsr4.getLsbD 3 ^^ g.lfsr4.getLsbD 0) }
  let g := { g with lfsr4 := flipBit g.lfsr4 0 (g.lfsr3.getLsbD 6 ^^ g.lfsr3.getLsbD 0) }
  let g := { g with lfsr3 := flipBit g.lfsr3 0 (g.lfsr2.getLsbD 4 ^^ g.lfsr2.getLsbD 0) }
  let g := { g with lfsr2 := flipBit g.lfsr2 0 (g.lfsr1.getLsbD 5 ^^ g.lfsr1.getLsbD 0) }
  { g with lfsr1 := flipBit g.lfsr1 0 (g.lfsr0.getLsbD 23 ^^ g.lfsr0.getLsbD 0) }

/-- `ksg128` on the packed view, by the segment and offset of each tap (R73, R75). -/
def ksgPacked (g : Segments) : Bool :=
  g.lfsr0.getLsbD 12 ^^ g.lfsr3.getLsbD 0 ^^ maj (g.lfsr5.getLsbD 5) (g.lfsr1.getLsbD 0) (g.lfsr4.getLsbD 0) ^^
    ch (g.lfsr5.getLsbD 0) (g.lfsr2.getLsbD 4) (g.lfsr1.getLsbD 5)

/-- `fbk128` on the packed view, by the segment and offset of each tap (R74, R75). -/
def fbkPacked (g : Segments) (ca cb ks : Bool) : Bool :=
  g.lfsr0.getLsbD 0 ^^ !(g.lfsr2.getLsbD 0) ^^
    maj (g.lfsr5.getLsbD 14) (g.lfsr0.getLsbD 23) (g.lfsr3.getLsbD 6) ^^ (ca && g.lfsr4.getLsbD 3) ^^ (cb && ks)

/-- A segment after the shift by one position (R83): its oldest bit leaves and `v` becomes its newest. -/
def shiftSegment {n : Nat} (x : BitVec n) (v : Bool) : BitVec n := (BitVec.cons v x).extractLsb' 1 n

/-- The shift on the packed view (R12, R83): the oldest bit of each segment becomes the newest of the next-older one. -/
def shiftPacked (g : Segments) (v : Bool) : Segments :=
  { lfsr0 := shiftSegment g.lfsr0 (g.lfsr1.getLsbD 0), lfsr1 := shiftSegment g.lfsr1 (g.lfsr2.getLsbD 0),
    lfsr2 := shiftSegment g.lfsr2 (g.lfsr3.getLsbD 0), lfsr3 := shiftSegment g.lfsr3 (g.lfsr4.getLsbD 0),
    lfsr4 := shiftSegment g.lfsr4 (g.lfsr5.getLsbD 0), lfsr5 := shiftSegment g.lfsr5 (g.lfsr6.getLsbD 0),
    lfsr6 := shiftSegment g.lfsr6 v }

/-- The single-bit step on the packed view (R12, R85, R86). -/
def stepPacked (f : Form) (b ca cb : Bool) (g : Segments) : Bool × Segments :=
  let t := tapXorsPacked g
  let ks := ksgPacked t
  let out := match f with
    | .encrypt => ks
    | .decrypt => ks ^^ b
  let mu := match f with
    | .encrypt => b
    | .decrypt => out
  (out, shiftPacked t (fbkPacked t ca cb ks ^^ mu))

/-! ### The word-parallel form -/

/-- Every lane holds the same bit: `ca` and `cb` are broadcast to the lanes (R51, R92). -/
def broadcast (n : Nat) (v : Bool) : BitVec n := if v then BitVec.allOnes n else 0#n

/-- `x` with the lanes of `v` written at positions `a, a+1, …`. -/
def writeLanes {m n : Nat} (x : BitVec m) (a : Nat) (v : BitVec n) : BitVec m :=
  (x &&& ~~~(BitVec.setWidth m (BitVec.allOnes n) <<< a)) ||| (BitVec.setWidth m v <<< a)

/-- `n` steps at once, `1 ≤ n ≤ 32` (R92): lane `j` of `din` and of the result is time-ordered bit `j`. -/
def bulkStep (f : Form) (n : Nat) (ca cb : Bool) (din : BitVec n) (S : Lfsr) : BitVec n × Lfsr :=
  let e (a : Nat) : BitVec n := S.extractLsb' a n
  let t61 := e 61 ^^^ e 23 ^^^ e 0
  let t107 := e 107 ^^^ e 66 ^^^ e 61
  let t154 := e 154 ^^^ e 111 ^^^ e 107
  let t193 := e 193 ^^^ e 160 ^^^ e 154
  let t230 := e 230 ^^^ e 196 ^^^ e 193
  let ks := e 12 ^^^ t154 ^^^ majLanes (e 235) t61 t193 ^^^ chLanes t230 (e 111) (e 66)
  let fb := e 0 ^^^ ~~~t107 ^^^ majLanes (e 244) (e 23) (e 160) ^^^ (broadcast n ca &&& e 196) ^^^
    (broadcast n cb &&& ks)
  let dout := match f with
    | .encrypt => ks
    | .decrypt => ks ^^^ din
  let mu := match f with
    | .encrypt => din
    | .decrypt => dout
  let x : BitVec (n + 293) := (fb ^^^ mu) ++ S
  let t289 : BitVec n := x.extractLsb' 289 n ^^^ e 235 ^^^ e 230
  let y := writeLanes (writeLanes (writeLanes (writeLanes (writeLanes (writeLanes x 61 t61) 107 t107) 154 t154)
    193 t193) 230 t230) 289 t289
  (dout, y.extractLsb' n 293)

end Sys2Proof.Machine
end

