-- ==== Sys2Proof/Safety.lean ====
section
/-!
DEFINITION. The terms claims are stated in: how a run starts, ends and is observed (R172), the register invariants the rules promise, and
the rules' own tables and index formulas written a second time, by index and not by list, so that a statement about a
meaning does not repeat the meaning.
-/

namespace Sys2Proof.Machine

/-! ### Runs and invariants -/

/-- A run starts in the reset state with its commands to come (R172). -/
def startRun (commands : List Request) : State := { State.reset with pending := commands }

/-- The run has ended: its last command has returned (R172). A command is one step, so none is under way between steps. -/
def State.ended (s : State) : Prop := s.pending = []

/-- The run has ended and ended well (R172). -/
def State.endedWell (s : State) : Prop := s.ended ∧ s.err = false

/-- The run has ended and has faulted (R172). -/
def State.endedFaulted (s : State) : Prop := s.ended ∧ s.err = true

/-- What a claim may observe at the end of a run (R172): every result in order, and the registers of R10. -/
structure Observation where
  results : List Result
  S : Lfsr
  tag : TagWord
  ok : Bool
  ph : Phase
  dir : Direction
  err : Bool
  errc : Cause
  deriving DecidableEq, Repr

/-- The observation a state gives (R172). -/
def State.observation (s : State) : Observation :=
  { results := s.results, S := s.S, tag := s.tag, ok := s.ok, ph := s.ph, dir := s.dir, err := s.err, errc := s.errc }

/-- `ERRC` names a cause exactly while `ERR = 1` (R19). -/
def State.FaultRecorded (s : State) : Prop := s.err = true ↔ s.errc ≠ .none

/-- `OK` reads 0 unless `PH = VERIFIED` (R18). -/
def State.OkOnlyVerified (s : State) : Prop := s.ok = true → s.ph = .verified

/-- `TAG` is 0 unless `PH = TAGGED` (R17, R15). -/
def State.TagOnlyTagged (s : State) : Prop := s.ph ≠ .tagged → s.tag = 0#128

/-- `DIR = DEC` only after a `CT`, and always when the tag has been compared (R16). -/
def State.DirectionByPhase (s : State) : Prop :=
  (s.dir = .dec → s.ph = .textDone ∨ s.ph = .tagged ∨ s.ph = .verified) ∧ (s.ph = .verified → s.dir = .dec)

/-- What every step keeps, whoever issues the commands (R15 to R19). -/
structure State.RegistersInv (s : State) : Prop where
  faultRecorded : s.FaultRecorded
  okOnlyVerified : s.OkOnlyVerified
  tagOnlyTagged : s.TagOnlyTagged
  directionByPhase : s.DirectionByPhase

/-- Only the host issues commands: the block as it is driven from outside (R60). -/
def State.HostOnly (s : State) : Prop := ∀ r ∈ s.pending, r.issuer = .host

/-- `S = 0` whenever no message is in progress (R13, R15). -/
def State.ShiftRegisterClear (s : State) : Prop :=
  s.ph = .idle ∨ s.ph = .tagged ∨ s.ph = .verified → s.S = 0#293

/-- What every step keeps while only the host issues commands. -/
structure State.Inv (s : State) : Prop where
  registers : s.RegistersInv
  hostOnly : s.HostOnly
  shiftRegisterClear : s.ShiftRegisterClear

/-! ### The admission table and the phase edges, as the spec tabulates them -/

/-- The condition of a host command's row (R142), apart from `ERR = 0`; a format-E word has no row. -/
def admissible (i : Instr) (ph : Phase) (dir : Direction) : Prop :=
  match i with
  | .clr => True
  | .init => True
  | .ad => ph = .keyed
  | .pt => ph = .adDone
  | .ct => ph = .adDone
  | .fin => ph = .textDone
  | .cmp => ph = .tagged ∧ dir = .dec
  | .step1 _ _ => False
  | .step1d _ _ => False
  | .step8 _ _ => False
  | .step8d _ _ => False
  | .step32 _ _ => False
  | .step32d _ _ => False

/-- The fixed-length operands of a host command are well sized (R143). -/
def wellSized (i : Instr) (x : Operands) : Prop :=
  (i = .init → x.key.length = 16 ∧ x.nonce.length = 16) ∧ (i = .cmp → x.tagIn.length = 16)

/-- `PH` after an accepted host command (R142, last column). -/
def phaseAfter (i : Instr) (ph : Phase) : Phase :=
  match i with
  | .clr => .idle
  | .init => .keyed
  | .ad => .adDone
  | .pt => .textDone
  | .ct => .textDone
  | .fin => .tagged
  | .cmp => .verified
  | .step1 _ _ => ph
  | .step1d _ _ => ph
  | .step8 _ _ => ph
  | .step8d _ _ => ph
  | .step32 _ _ => ph
  | .step32d _ _ => ph

/-- The moves of `PH` (R15): along the one linear sequence, to `KEYED` by `INIT`, to `IDLE` by `CLR`. -/
def phaseEdge (a b : Phase) : Prop :=
  b = .idle ∨ b = .keyed ∨ (a = .keyed ∧ b = .adDone) ∨ (a = .adDone ∧ b = .textDone) ∨
    (a = .textDone ∧ b = .tagged) ∨ (a = .tagged ∧ b = .verified)

/-! ### Index formulas -/

/-- Bit `k` of a byte sequence in time order under `LSB_FIRST`: bit `k mod 8` of byte `X[k div 8]` (R34). -/
def byteBit (X : List Byte) (k : Nat) : Bool := (X.getD (k / 8) 0#8).getLsbD (k % 8)

/-- `S` after `n` single-bit steps in one form and with one control pair, step `k` on bit `b k` (R85 to R91). -/
def stateAfter (f : Form) (ca cb : Bool) (b : Nat → Bool) (S : Lfsr) : Nat → Lfsr
  | 0 => S
  | k + 1 => (stepForm f (b k) ca cb (stateAfter f ca cb b S k)).2

/-- The bit step `k` returns in the same run (R84). -/
def bitReturned (f : Form) (ca cb : Bool) (b : Nat → Bool) (S : Lfsr) (k : Nat) : Bool :=
  (stepForm f (b k) ca cb (stateAfter f ca cb b S k)).1

/-- `S` after the 256 trailer steps by the rows of R108: `1` and 127 zeros with `ca = 1`, then 128 zeros with `ca = 0`. -/
def stateAfterTrailer (cb : Bool) (S : Lfsr) : Lfsr :=
  stateAfter .encrypt false cb (fun _ => false) (stateAfter .encrypt true cb (fun k => k == 0) S 128) 128

/-- Bit `i` of the initialization sequence (R102). -/
def initBit (K N : List Byte) (i : Nat) : Bool :=
  if i < 128 then byteBit K i
  else if i < 256 then byteBit N (i - 128)
  else if i = 256 then !byteBit K 0
  else byteBit K ((i - 256) % 128)

/-- The six tap XORs as six simultaneous assignments that all read the state before sub-step 1 (R80). -/
def tapXorBit (S : Lfsr) (i : Nat) : Bool :=
  if i = 289 then rbit S 289 ^^ rbit S 235 ^^ rbit S 230
  else if i = 230 then rbit S 230 ^^ rbit S 196 ^^ rbit S 193
  else if i = 193 then rbit S 193 ^^ rbit S 160 ^^ rbit S 154
  else if i = 154 then rbit S 154 ^^ rbit S 111 ^^ rbit S 107
  else if i = 107 then rbit S 107 ^^ rbit S 66 ^^ rbit S 61
  else if i = 61 then rbit S 61 ^^ rbit S 23 ^^ rbit S 0
  else rbit S i

/-- Time-ordered bit `k` of the word that carries an engine operation's operand (R35 under `LSB_FIRST`). -/
def wordBit (W : Word32) (k : Nat) : Bool := W.getLsbD k

/-- What it is for a format-E operation to complete (R85 to R90): `S` is the state after as many single-bit steps as the
width has bits, bit `j` of the returned word is the bit step `j` returned, the unused upper bits of the word that carries
the result are 0, and nothing else changes. -/
def EngineCompletes (i : Instr) (f : Form) (w : Width) (ca cb : Bool) (s : State) : Prop :=
  ∃ word : Word32,
    exec i s = .next { s with
      S := stateAfter f ca cb (wordBit s.ops.din) s.S (widthBits w), results := s.results ++ [.dout w word] } ∧
    (∀ j, j < widthBits w → word.getLsbD j = bitReturned f ca cb (wordBit s.ops.din) s.S j) ∧
    (∀ j, widthBits w ≤ j → word.getLsbD j = false)

/-- Two states that agree on everything public (R38, R111): `PH`, `DIR`, `ERR`, `ERRC`, who issued the command, the lengths
of the operands and how many results have been returned. -/
def State.PubliclyEqual (s t : State) : Prop :=
  s.ph = t.ph ∧ s.dir = t.dir ∧ s.err = t.err ∧ s.errc = t.errc ∧ s.issuer = t.issuer ∧
    s.ops.key.length = t.ops.key.length ∧ s.ops.nonce.length = t.ops.nonce.length ∧
    s.ops.adata.length = t.ops.adata.length ∧ s.ops.textIn.length = t.ops.textIn.length ∧
    s.ops.tagIn.length = t.ops.tagIn.length ∧ s.results.length = t.results.length

end Sys2Proof.Machine
end

