-- ==== Sys2Proof/Certificates/Slice0/Obligations.lean ====
section
/-!
DEFINITION. The statements for the provers. Each docstring names the rule of `spec/` it formalises.
-/

open Sys2Proof Sys2Proof.Machine

/-! ### Reset, command words, one step -/

/-- R160, R23: after reset every register of R10 holds 0 and `STATUS` reads `0x00`; reset applied in any state between
commands leaves the same register values, which are the values `CLR` leaves (R122). The model's own: that a step with no
command to come keeps the state (R161, log entry 12), and that reset leaves the commands to come, the results and the
operand spaces as they are (log entry 16). -/
def Obligations.ResetLeavesEveryRegisterZero : Prop :=
  State.reset.S = 0#293 ∧ State.reset.tag = 0#128 ∧ State.reset.ok = false ∧ State.reset.ph = .idle ∧
    State.reset.dir = .enc ∧ State.reset.err = false ∧ State.reset.errc = .none ∧ State.reset.status = 0x00#8 ∧
    step State.reset = .next State.reset ∧
    ∀ s : State,
      s.applyReset = { s with
        S := 0#293, tag := 0#128, ok := false, ph := .idle, dir := .enc, err := false, errc := .none } ∧
      exec .clr s = .next s.applyReset

/-- R54 and the table V13: words written out bit by bit (`fmt w d ca cb z`, `fmt z op`) and the operations they select. -/
def Obligations.DecodeReadsWordsWrittenOut : Prop :=
  decode 0b00001000#8 = .ok (.step1 true false) ∧ decode 0b00010100#8 = .ok (.step1d false true) ∧
    decode 0b00101100#8 = .ok (.step8 true true) ∧ decode 0b00111000#8 = .ok (.step8d true false) ∧
    decode 0b01001100#8 = .ok (.step32 true true) ∧ decode 0b01011000#8 = .ok (.step32d true false) ∧
    decode 0b10000000#8 = .ok .clr ∧ decode 0b10000001#8 = .ok .init ∧ decode 0b10000010#8 = .ok .ad ∧
    decode 0b10000011#8 = .ok .pt ∧ decode 0b10000100#8 = .ok .ct ∧ decode 0b10000101#8 = .ok .fin ∧
    decode 0b10000110#8 = .ok .cmp

/-- R54: decoding an operation's word gives the operation back, with both control bits, and a word that decodes is the
encoding of what it decodes to. -/
def Obligations.DecodeAndEncodeAgree : Prop :=
  (∀ i : Instr, i.wellFormed = true ∧ decode (encode i) = .ok i) ∧
    (∀ (cw : Byte) (i : Instr), decode cw = .ok i → encode i = cw)

/-- R54: a word decodes exactly when it selects a row of the opcode map, to an operation of that row's mnemonic, and no two
rows select one word. -/
def Obligations.DecodeFollowsTheOpcodeMap : Prop :=
  (∀ (cw : Byte) (i : Instr), decode cw = .ok i → ∃ r ∈ opcodeTable, r.selects cw = true ∧ r.mnemonic = i.mnemonic) ∧
    (∀ (cw : Byte) (e : DecodeError), decode cw = .error e → ∀ r ∈ opcodeTable, r.selects cw = false) ∧
    (∀ cw : Byte, (opcodeTable.filter (·.selects cw)).length ≤ 1)

/-- R55: each class of reserved words is rejected, under its own name where only one class applies. -/
def Obligations.ReservedWordsAreRejected : Prop :=
  ∀ cw : Byte,
    (cw.getLsbD 7 = false → cw.extractLsb' 0 2 ≠ 0#2 → decode cw = .error .reservedBitsE) ∧
      (cw.getLsbD 7 = false → cw.extractLsb' 0 2 = 0#2 → cw.extractLsb' 5 2 = 3#2 → decode cw = .error .reservedWidth) ∧
      (cw.getLsbD 7 = true → cw.extractLsb' 4 3 ≠ 0#3 → decode cw = .error .reservedBitsH) ∧
      (cw.getLsbD 7 = true → cw.extractLsb' 4 3 = 0#3 → 7 ≤ (cw.extractLsb' 0 4).toNat → decode cw = .error .unassignedOp)

/-- R42, R148: a step presents the next command with its operands, runs the operation its word decodes to, and releases the
operands. Format E runs when the controller presents it (R60); `exec` itself says what it does when the host does. -/
def Obligations.StepRunsTheDecodedOperation : Prop :=
  ∀ (s : State) (r : Request) (rest : List Request) (i : Instr), s.pending = r :: rest → decode r.word = .ok i →
    (r.issuer = .host ∨ i.isFormatE = true) → step s = releaseOutcome (exec i (s.present r rest))

/-- R157, R161: with no command to issue the block holds its state. -/
def Obligations.StepHoldsItsStateWithoutACommand : Prop :=
  ∀ s : State, s.pending = [] → step s = .next s

/-- R141: a host word that selects no format-H command, reserved or format E, raises `ILLEGAL_COMMAND` when no fault
stands. -/
def Obligations.IllegalHostWordsRaiseIllegalCommand : Prop :=
  ∀ (s : State) (r : Request) (rest : List Request), s.pending = r :: rest → r.issuer = .host → s.err = false →
    (∀ i : Instr, decode r.word = .ok i → i.isFormatE = true) →
    step s = .next { s with
      err := true, errc := .illegalCommand, pending := rest, ops := Operands.empty, issuer := .host }

/-- At the engine's own interface a word without meaning is refused: a reserved format-E word (R55) and a reserved word 0x87
to 0xFF (U12 of `93_implementation_defined.md`). That an assigned format-H word is refused there too is the model's choice
(log entry 6, DEDUCED from R51 and R60). -/
def Obligations.EngineRefusesWordsWithoutMeaning : Prop :=
  ∀ (s : State) (r : Request) (rest : List Request), s.pending = r :: rest → r.issuer = .controller →
    (∀ e : DecodeError, decode r.word = .error e → step s = .refused (.reservedEngineWord r.word)) ∧
      (∀ i : Instr, decode r.word = .ok i → i.isFormatE = false → step s = .refused (.hostWordAtEngine r.word))

/-- R95, and the last paragraph of `93_implementation_defined.md` section 2: every operation has exactly one outcome in
every state, a next state. -/
def Obligations.EveryOperationAnswersANextState : Prop :=
  ∀ (i : Instr) (s : State), ∃ t, exec i s = .next t

/-- R141, R148, R172: while only the host issues commands, no step stops and none of the commands to come is lost or
reordered; so a run of any host commands from the reset state has ended after as many steps as it has commands, well or
faulted. -/
def Obligations.HostCommandsNeverStop : Prop :=
  (∀ s : State, s.HostOnly → ∃ t, step s = .next t ∧ t.pending = s.pending.drop 1) ∧
    (∀ commands : List Request, (∀ r ∈ commands, r.issuer = .host) →
      ∃ t, runSteps commands.length (startRun commands) = .next t ∧ (t.endedWell ∨ t.endedFaulted))

/-! ### The combinational network -/

/-- R70: the formula, the truth table, the symmetry. -/
def Obligations.MajIsTheMajority : Prop :=
  ∀ x y z : Bool,
    maj x y z = (((x && y) ^^ (x && z)) ^^ (y && z)) ∧ (maj x y z = true ↔ 2 ≤ x.toNat + y.toNat + z.toNat) ∧
      maj x y z = maj y x z ∧ maj x y z = maj x z y ∧ maj x y z = maj z y x

/-- R71: the formula and the selector reading; it is not symmetric. -/
def Obligations.ChSelectsByItsFirstArgument : Prop :=
  (∀ x y z : Bool, ch x y z = ((x && y) ^^ (!x && z)) ∧ ch x y z = if x then y else z) ∧
    ∃ x y z : Bool, ch x y z ≠ ch y x z

/-- R72: lane `j` of a lifted function depends on lane `j` of each input alone. -/
def Obligations.LanesAreIndependent : Prop :=
  ∀ (n : Nat) (x y z : BitVec n) (j : Nat), j < n →
    (majLanes x y z).getLsbD j = maj (x.getLsbD j) (y.getLsbD j) (z.getLsbD j) ∧
      (chLanes x y z).getLsbD j = ch (x.getLsbD j) (y.getLsbD j) (z.getLsbD j)

/-- R73: the value by its eight taps, the two corner cases, the example, and the state it is evaluated on within a step. -/
def Obligations.KeystreamBitReadsItsEightTaps : Prop :=
  (∀ S : Lfsr, ksg128 S = (((S.getLsbD 12 ^^ S.getLsbD 154) ^^ maj (S.getLsbD 235) (S.getLsbD 61) (S.getLsbD 193)) ^^
      ch (S.getLsbD 230) (S.getLsbD 111) (S.getLsbD 66))) ∧
    ksg128 0#293 = false ∧ ksg128 (BitVec.allOnes 293) = false ∧ ksg128 (1#293 <<< 12) = true ∧
    (∀ (m ca cb : Bool) (S : Lfsr), (stepBit m ca cb S).1 = ksg128 (tapXors S))

/-- R74: the value by its six taps and three further bits, the corner cases, and that a step evaluates it on the `ks` it
returns. -/
def Obligations.FeedbackBitReadsItsSixTaps : Prop :=
  (∀ (S : Lfsr) (ca cb ks : Bool), fbk128 S ca cb ks =
      ((((S.getLsbD 0 ^^ !(S.getLsbD 107)) ^^ maj (S.getLsbD 244) (S.getLsbD 23) (S.getLsbD 160)) ^^
        (ca && S.getLsbD 196)) ^^ (cb && ks))) ∧
    (∀ ca cb : Bool, fbk128 0#293 ca cb false = true ∧ fbk128 (BitVec.allOnes 293) ca cb false = ca) ∧
    (∀ (S : Lfsr) (v cb ks : Bool), fbk128 (writeBit S 196 v) false cb ks = fbk128 S false cb ks) ∧
    (∀ (S : Lfsr) (ca ks : Bool), fbk128 S ca false ks = fbk128 S ca false false) ∧
    (∀ (m ca cb : Bool) (S : Lfsr),
      rbit (stepBit m ca cb S).2 292 = (fbk128 (tapXors S) ca cb (stepBit m ca cb S).1 ^^ m))

/-! ### The single-bit step -/

/-- R80: the six assignments in the order written equal six simultaneous ones that all read the state before them, and
every other bit is unchanged. -/
def Obligations.TapXorsReadTheStateBeforeThem : Prop :=
  ∀ (S : Lfsr) (i : Nat), rbit (tapXors S) i = tapXorBit S i

/-- R81 to R84: what a step leaves in every bit of `S` and what it returns, in both forms. -/
def Obligations.StepShiftsAndReturns : Prop :=
  ∀ (b ca cb : Bool) (S : Lfsr),
    let T := tapXors S
    let ks := ksg128 T
    let fb := fbk128 T ca cb ks
    (stepBit b ca cb S).1 = ks ∧ (stepBitD b ca cb S).1 = (ks ^^ b) ∧
      (∀ i, i < 292 → rbit (stepBit b ca cb S).2 i = rbit T (i + 1) ∧ rbit (stepBitD b ca cb S).2 i = rbit T (i + 1)) ∧
      rbit (stepBit b ca cb S).2 292 = (fb ^^ b) ∧ rbit (stepBitD b ca cb S).2 292 = (fb ^^ (ks ^^ b))

/-- R85, R86, V9: the corner cases on the all-zero and the all-one state. -/
def Obligations.StepOnTheSpecialStates : Prop :=
  ∀ m ca cb : Bool,
    stepBit m ca cb 0#293 = (false, shiftIn 0#293 (!m)) ∧ stepBit true ca cb 0#293 = (false, 0#293) ∧
      stepBitD true ca cb 0#293 = (true, 0#293) ∧
      stepBit m ca cb (BitVec.allOnes 293) = (false, shiftIn (BitVec.allOnes 293) (ca ^^ m))

/-- R86: the decrypt step is the encrypt step of the recovered bit, and it recovers what was encrypted from the same `S`. -/
def Obligations.DecryptStepRecoversTheMessageBit : Prop :=
  ∀ (m ca cb : Bool) (S : Lfsr),
    stepBitD (m ^^ (stepBit m ca cb S).1) ca cb S = (m, (stepBit m ca cb S).2)

/-! ### The engine operations -/

/-- R85, R87, R89: `STEP1`, `STEP8` and `STEP32` given by the controller complete, whatever the state. -/
def Obligations.EncryptFormOperationsComplete : Prop :=
  ∀ (ca cb : Bool) (s : State), s.issuer = .controller →
    EngineCompletes (.step1 ca cb) .encrypt .bits1 ca cb s ∧ EngineCompletes (.step8 ca cb) .encrypt .bits8 ca cb s ∧
      EngineCompletes (.step32 ca cb) .encrypt .bits32 ca cb s

/-- R86, R88, R90: `STEP1D`, `STEP8D` and `STEP32D` given by the controller complete, whatever the state. -/
def Obligations.DecryptFormOperationsComplete : Prop :=
  ∀ (ca cb : Bool) (s : State), s.issuer = .controller →
    EngineCompletes (.step1d ca cb) .decrypt .bits1 ca cb s ∧ EngineCompletes (.step8d ca cb) .decrypt .bits8 ca cb s ∧
      EngineCompletes (.step32d ca cb) .decrypt .bits32 ca cb s

/-- R60, R141, R144: the host may issue no engine operation. -/
def Obligations.HostIssuedEngineOperationsAreIllegal : Prop :=
  ∀ (i : Instr) (s : State), i.isFormatE = true → s.issuer = .host →
    (s.err = false → exec i s = .next { s with err := true, errc := .illegalCommand }) ∧
      (s.err = true → exec i s = .next s)

/-- R91, R35: a 32-bit operation is four 8-bit operations on the bytes of its word, byte 0 first. -/
def Obligations.WideOperationIsFourNarrowOnes : Prop :=
  ∀ (f : Form) (ca cb : Bool) (W : Word32) (S : Lfsr),
    let r0 := engineStep f .bits8 ca cb (BitVec.setWidth 32 (W.extractLsb' 0 8)) S
    let r1 := engineStep f .bits8 ca cb (BitVec.setWidth 32 (W.extractLsb' 8 8)) r0.2
    let r2 := engineStep f .bits8 ca cb (BitVec.setWidth 32 (W.extractLsb' 16 8)) r1.2
    let r3 := engineStep f .bits8 ca cb (BitVec.setWidth 32 (W.extractLsb' 24 8)) r2.2
    engineStep f .bits32 ca cb W S =
      (r0.1 ||| (r1.1 <<< 8) ||| (r2.1 <<< 16) ||| (r3.1 <<< 24), r3.2)

/-- R92: the word-parallel form equals the iterated single-bit step for every width up to 32, in both forms and for every
control pair. -/
def Obligations.WordParallelFormEqualsIteratedStep : Prop :=
  ∀ (f : Form) (n : Nat) (ca cb : Bool) (q : List Bool) (S : Lfsr), 1 ≤ n → n ≤ 32 → q.length = n →
    let p := bulkStep f n ca cb (bitsWord .lsbFirst n q) S
    let r := stepBits f ca cb q S
    wordBits .lsbFirst n p.1 = r.1 ∧ p.2 = r.2

/-- R92: within one operation of at most 32 bits the keystream depends on `S` alone, not on the operand or the control
pair. -/
def Obligations.KeystreamOfOneOperationDependsOnSAlone : Prop :=
  ∀ (p q : List Bool) (ca cb ca' cb' : Bool) (S : Lfsr), p.length = q.length → q.length ≤ 32 →
    (stepBits .encrypt ca cb p S).1 = (stepBits .encrypt ca' cb' q S).1

/-- R12: the packed view has the same observations as the bit form, and the single-bit step computed on the seven segments
is the step on `s[0..292]`. -/
def Obligations.PackedViewAgreesWithTheBitForm : Prop :=
  (∀ S : Lfsr, ofSegments (toSegments S) = S) ∧ (∀ g : Segments, toSegments (ofSegments g) = g) ∧
    (∀ (S : Lfsr) (k j : Nat), k < 7 → j < Config.segLen.getD k 0 →
      segmentBit (toSegments S) k j = rbit S (Config.segBase.getD k 0 + j)) ∧
    (∀ (f : Form) (b ca cb : Bool) (S : Lfsr),
      stepPacked f b ca cb (toSegments S) = ((stepForm f b ca cb S).1, toSegments (stepForm f b ca cb S).2))

/-! ### The host commands complete -/

/-- R101, R102: `INIT` runs the 1792 steps of the initialization sequence from the zero state, in any phase; a mis-sized
operand raises `LENGTH`, and while a fault stands it is refused. -/
def Obligations.InitCompletes : Prop :=
  (∀ s : State, s.err = false → s.ops.key.length = 16 → s.ops.nonce.length = 16 →
    exec .init s = .next { s with
      S := stateAfter .encrypt true true (initBit s.ops.key s.ops.nonce) 0#293 1792,
      tag := 0#128, ok := false, dir := .enc, ph := .keyed }) ∧
    (∀ s : State, s.err = false → (s.ops.key.length ≠ 16 ∨ s.ops.nonce.length ≠ 16) →
      exec .init s = .next { s with err := true, errc := .length }) ∧
    (∀ s : State, s.err = true → exec .init s = .next s)

/-- R103, R107, R108: `AD` absorbs the associated data and the trailer with `cb = 1`, for every length, 0 included;
out of order it raises `SEQUENCE`, and while a fault stands it is refused. -/
def Obligations.AdCompletes : Prop :=
  (∀ s : State, s.err = false → s.ph = .keyed →
    exec .ad s = .next { s with
      S := stateAfterTrailer true
        (stateAfter .encrypt true true (byteBit s.ops.adata) s.S (8 * s.ops.adata.length)),
      ph := .adDone }) ∧
    (∀ s : State, s.err = false → s.ph ≠ .keyed → exec .ad s = .next { s with err := true, errc := .sequence }) ∧
    (∀ s : State, s.err = true → exec .ad s = .next s)

/-- R104, R107, R108: `PT` returns the text XORed with the keystream and absorbs the plaintext and the trailer;
out of order it raises `SEQUENCE`, and while a fault stands it is refused. -/
def Obligations.PtCompletes : Prop :=
  (∀ s : State, s.err = false → s.ph = .adDone →
    ∃ C : List Byte,
      exec .pt s = .next { s with
        S := stateAfterTrailer false
          (stateAfter .encrypt true false (byteBit s.ops.textIn) s.S (8 * s.ops.textIn.length)),
        dir := .enc, ph := .textDone, results := s.results ++ [.textOut C] } ∧
      C.length = s.ops.textIn.length ∧
      ∀ k, k < 8 * s.ops.textIn.length →
        byteBit C k = (byteBit s.ops.textIn k ^^ bitReturned .encrypt true false (byteBit s.ops.textIn) s.S k)) ∧
    (∀ s : State, s.err = false → s.ph ≠ .adDone → exec .pt s = .next { s with err := true, errc := .sequence }) ∧
    (∀ s : State, s.err = true → exec .pt s = .next s)

/-- R105, R107, R108: `CT` returns the recovered text and absorbs it; the trailer is in the encrypt form; out
of order it raises `SEQUENCE`, and while a fault stands it is refused. -/
def Obligations.CtCompletes : Prop :=
  (∀ s : State, s.err = false → s.ph = .adDone →
    ∃ P : List Byte,
      exec .ct s = .next { s with
        S := stateAfterTrailer false
          (stateAfter .decrypt true false (byteBit s.ops.textIn) s.S (8 * s.ops.textIn.length)),
        dir := .dec, ph := .textDone, results := s.results ++ [.textOut P] } ∧
      P.length = s.ops.textIn.length ∧
      ∀ k, k < 8 * s.ops.textIn.length →
        byteBit P k = bitReturned .decrypt true false (byteBit s.ops.textIn) s.S k) ∧
    (∀ s : State, s.err = false → s.ph ≠ .adDone → exec .ct s = .next { s with err := true, errc := .sequence }) ∧
    (∀ s : State, s.err = true → exec .ct s = .next s)

/-- R106, R17, R108: `FIN` fills `TAG` from the keystream of steps 640 to 767, zeroizes `S`, and returns the tag only when
`DIR = ENC`; out of order it raises `SEQUENCE`, and while a fault stands it is refused. -/
def Obligations.FinCompletes : Prop :=
  (∀ s : State, s.err = false → s.ph = .textDone →
    ∃ T : TagWord,
      exec .fin s = .next { s with
        S := 0#293, tag := T, ph := .tagged,
        results := s.results ++ if s.dir = .enc then [.tagOut (tagBytes T)] else [] } ∧
      ∀ k, k < 128 → byteBit (tagBytes T) k = bitReturned .encrypt true true (fun _ => false) s.S (640 + k)) ∧
    (∀ s : State, s.err = false → s.ph ≠ .textDone → exec .fin s = .next { s with err := true, errc := .sequence }) ∧
    (∀ s : State, s.err = true → exec .fin s = .next s)

/-- R120, R18: `CMP` sets `OK` exactly when the supplied tag equals `TAG`, zeroizes `TAG` and returns the flag;
out of order it raises `SEQUENCE`, on a mis-sized tag `LENGTH`, and while a fault stands it is refused. -/
def Obligations.CmpCompletes : Prop :=
  (∀ s : State, s.err = false → s.ph = .tagged → s.dir = .dec → s.ops.tagIn.length = 16 →
    exec .cmp s = .next { s with
      ok := decide (s.ops.tagIn = tagBytes s.tag), tag := 0#128, ph := .verified,
      results := s.results ++ [.okOut (decide (s.ops.tagIn = tagBytes s.tag))] }) ∧
    (∀ s : State, s.err = false → s.ph = .tagged → s.dir = .dec → s.ops.tagIn.length ≠ 16 →
      exec .cmp s = .next { s with err := true, errc := .length }) ∧
    (∀ s : State, s.err = false → (s.ph ≠ .tagged ∨ s.dir = .enc) → exec .cmp s = .next { s with err := true, errc := .sequence }) ∧
    (∀ s : State, s.err = true → exec .cmp s = .next s)

/-- R122: `CLR` completes in every state, leaves the reset values and touches no operand or result space; it is the only
operation that clears `ERR`. -/
def Obligations.ClrCompletes : Prop :=
  (∀ s : State, exec .clr s = .next { s with
      S := State.reset.S, tag := State.reset.tag, ok := State.reset.ok, ph := State.reset.ph, dir := State.reset.dir,
      err := State.reset.err, errc := State.reset.errc }) ∧
    (∀ (i : Instr) (s t : State), exec i s = .next t → s.err = true → t.err = false → i = .clr)

/-! ### The exception -/

/-- R142: the admission table: out of its row's condition a command raises `SEQUENCE`, whatever its operands; in it and
well sized, it is accepted and `PH` and `DIR` are as tabulated. -/
def Obligations.AdmissionTable : Prop :=
  ∀ (i : Instr) (s t : State), i.isFormatE = false → s.err = false → exec i s = .next t →
    (¬ admissible i s.ph s.dir → t = { s with err := true, errc := .sequence }) ∧
      (admissible i s.ph s.dir → wellSized i s.ops →
        t.err = false ∧ t.ph = phaseAfter i s.ph ∧ (i = .pt → t.dir = .enc) ∧ (i = .ct → t.dir = .dec))

/-- R144: while `ERR = 1` every host command but `CLR` changes nothing, whatever its word, and `ERRC` keeps the first
cause. -/
def Obligations.FaultedBlockAcceptsOnlyClr : Prop :=
  ∀ (s : State) (r : Request) (rest : List Request), s.pending = r :: rest → r.issuer = .host → s.err = true →
    (r.word ≠ 0x80#8 →
      step s = .next { s with pending := rest, ops := Operands.empty, issuer := .host }) ∧
      (r.word = 0x80#8 → ∃ t, step s = .next t ∧ t.err = false ∧ t.errc = .none ∧ t.ph = .idle ∧ t.results = s.results)

/-- R145: a wrong tag is no fault: `OK = 0`, `ERR` stays 0, and `INIT` and `CLR` are accepted next. -/
def Obligations.WrongTagIsNoFault : Prop :=
  ∀ s : State, s.err = false → s.ph = .tagged → s.dir = .dec → s.ops.tagIn.length = 16 →
    s.ops.tagIn ≠ tagBytes s.tag →
    ∃ t, exec .cmp s = .next t ∧ t.ok = false ∧ t.err = false ∧ t.ph = .verified ∧
      ∀ x : Operands, x.key.length = 16 → x.nonce.length = 16 →
        (∃ u, exec .init { t with ops := x } = .next u ∧ u.err = false ∧ u.ph = .keyed) ∧
        (∃ u, exec .clr { t with ops := x } = .next u ∧ u.err = false ∧ u.ph = .idle)

/-- R148: the order of the checks on a host command; the first failing one decides, and a raised exception is two writes
and nothing else. -/
def Obligations.ChecksDecideInOrder : Prop :=
  ∀ (s : State) (r : Request) (rest : List Request), s.pending = r :: rest → r.issuer = .host →
    let p := s.present r rest
    (r.word = 0x80#8 → step s = releaseOutcome (exec .clr p)) ∧
      (r.word ≠ 0x80#8 → s.err = true → step s = .next p.release) ∧
      (r.word ≠ 0x80#8 → s.err = false →
        ((∀ i : Instr, decode r.word = .ok i → i.isFormatE = true) →
          step s = .next { p with err := true, errc := .illegalCommand }.release) ∧
        (∀ i : Instr, decode r.word = .ok i → i.isFormatE = false →
          (¬ admissible i s.ph s.dir → step s = .next { p with err := true, errc := .sequence }.release) ∧
          (admissible i s.ph s.dir → ¬ wellSized i r.ops → step s = .next { p with err := true, errc := .length }.release) ∧
          (admissible i s.ph s.dir → wellSized i r.ops →
            ∃ t, exec i p = .next t ∧ t.err = false ∧ step s = .next t.release)))

/-! ### What every step keeps -/

/-- R15 to R19: every step, host command or engine operation, keeps `ERRC` in agreement with `ERR`, `OK` 0 unless
`PH = VERIFIED`, `TAG` 0 unless `PH = TAGGED`, and `DIR` in agreement with `PH`. -/
def Obligations.EveryStepKeepsTheRegisterInvariant : Prop :=
  ∀ s t : State, s.RegistersInv → step s = .next t → t.RegistersInv

/-- R13, R15, R60: while only the host issues commands, every step also keeps `S = 0` whenever no message is in progress. -/
def Obligations.EveryHostStepKeepsTheInvariant : Prop :=
  ∀ s t : State, s.Inv → step s = .next t → t.Inv

/-- R23: the reset state meets the invariant. -/
def Obligations.ResetMeetsTheInvariant : Prop := State.reset.Inv

/-- R15, R110: a step leaves `PH` where it is or moves it along an edge of the one linear sequence, to `KEYED` or to
`IDLE`. -/
def Obligations.PhaseMovesOnlyAlongItsEdges : Prop :=
  ∀ s t : State, step s = .next t → t.ph = s.ph ∨ phaseEdge s.ph t.ph

/-- R20, R21: no operand is retained once its command has returned. -/
def Obligations.NoOperandIsRetained : Prop :=
  ∀ s t : State, step s = .next t → s.pending ≠ [] → t.ops = Operands.empty

/-- R16, R22: while a message is being decrypted no host command returns a tag. -/
def Obligations.NoTagLeavesWhileDecrypting : Prop :=
  ∀ (s t : State) (bytes : List Byte), step s = .next t → s.dir = .dec →
    .tagOut bytes ∈ t.results → .tagOut bytes ∈ s.results

/-! ### The AEAD interface -/

/-- R123: `ENCRYPT`, started with no fault standing, in any phase, is never refused, returns `(C, T)` and leaves every
register at its reset value. -/
def Obligations.EncryptRunReturnsCiphertextAndTag : Prop :=
  ∀ (s : State) (K N A P : List Byte) (rest : List Request), s.err = false → K.length = 16 → N.length = 16 →
    s.pending = encryptCommands K N A P ++ rest →
    runSteps 5 s = .next { State.reset with
      pending := rest,
      results := s.results ++
        [.textOut (encryptValue Config.bitOrder K N A P).1, .tagOut (encryptValue Config.bitOrder K N A P).2] }

/-- R124, R125: `DECRYPT`, started with no fault standing, in any phase, is never refused, returns `(P, ok)` whatever `ok`
is, never the recomputed tag, and leaves every register at its reset value. -/
def Obligations.DecryptRunReturnsPlaintextAndFlag : Prop :=
  ∀ (s : State) (K N A C T : List Byte) (rest : List Request), s.err = false → K.length = 16 → N.length = 16 →
    T.length = 16 → s.pending = decryptCommands K N A C T ++ rest →
    runSteps 6 s = .next { State.reset with
      pending := rest,
      results := s.results ++
        [.textOut (decryptValue Config.bitOrder K N A C T).1, .okOut (decryptValue Config.bitOrder K N A C T).2] }

/-- R126 P1: decrypting what was encrypted returns the plaintext and `true`, for all operands and either bit order. For `K`
and `N` of another length than 16, which `INIT` refuses, it speaks of the model's total functions (log entry 17). -/
def Obligations.DecryptInvertsEncrypt : Prop :=
  ∀ (o : BitOrder) (K N A P : List Byte),
    let e := encryptValue o K N A P
    decryptValue o K N A e.1 e.2 = (P, true)

/-- R126 P2: the ciphertext has the plaintext's length, the recovered text the ciphertext's, the tag 16 bytes.
For `K`, `N` and `T` of another length than 16 it speaks of the model's total functions (log entry 17). -/
def Obligations.LengthsArePreserved : Prop :=
  ∀ (o : BitOrder) (K N A X T : List Byte),
    (encryptValue o K N A X).1.length = X.length ∧ (encryptValue o K N A X).2.length = 16 ∧
      (decryptValue o K N A X T).1.length = X.length

/-- R126 P4 for the tag: any tag other than the one `encrypt` returned is rejected, a single flipped bit included. For `K`
and `N` of another length than 16 it speaks of the model's total functions (log entry 17). -/
def Obligations.OtherTagsAreRejected : Prop :=
  ∀ (o : BitOrder) (K N A P T : List Byte), T.length = 16 → T ≠ (encryptValue o K N A P).2 →
    (decryptValue o K N A (encryptValue o K N A P).1 T).2 = false

/-- R31: output byte `i` of `PT` and `CT` depends only on input bytes `0..i` and on `S`. -/
def Obligations.OutputDependsOnlyOnEarlierInput : Prop :=
  ∀ (o : BitOrder) (X Y Z : List Byte) (S : Lfsr),
    (ptText o (X ++ Y) S).1.take X.length = (ptText o (X ++ Z) S).1.take X.length ∧
      (ctText o (X ++ Y) S).1.take X.length = (ctText o (X ++ Z) S).1.take X.length

/-- R34: flipping bit `j` of ciphertext byte `i` leaves the earlier plaintext bytes and flips exactly bit `j` of plaintext
byte `i`, under either bit order. -/
def Obligations.CiphertextBitFlipFlipsThePlaintextBit : Prop :=
  ∀ (o : BitOrder) (X Y : List Byte) (B : Byte) (j : Nat) (S : Lfsr), j < 8 →
    let P := (ctText o (X ++ B :: Y) S).1
    let P' := (ctText o (X ++ (B ^^^ (1#8 <<< j)) :: Y) S).1
    P'.take X.length = P.take X.length ∧ P'.getD X.length 0#8 = P.getD X.length 0#8 ^^^ (1#8 <<< j)

/-! ### The controller's schedule -/

/-- R109, R91: the 56 engine operations the controller issues for `INIT` leave the `S` that `INIT` leaves, and the last four
of the 24 it issues for `FIN` give the bytes of `TAG`. -/
def Obligations.FixedSchedulesGiveTheSameResults : Prop :=
  ∀ s t : State, s.err = false →
    (s.ops.key.length = 16 → s.ops.nonce.length = 16 → exec .init s = .next t →
      ∃ out, runEngine Config.bitOrder (initSchedule Config.bitOrder s.ops.key s.ops.nonce) 0#293 = some (out, t.S)) ∧
    (s.ph = .textDone → exec .fin s = .next t →
      ∃ out S', runEngine Config.bitOrder finSchedule s.S = some (out, S') ∧ tagBytes t.tag = out.drop 80)

/-- R109, R91: the operations the controller issues for `AD`, `PT` and `CT`, with the tail taken in bytes, leave the same `S`
and give the same text. -/
def Obligations.DataSchedulesGiveTheSameResults : Prop :=
  ∀ s t : State, s.err = false →
    (s.ph = .keyed → exec .ad s = .next t →
      ∃ out, runEngine Config.bitOrder (adSchedule Config.bitOrder s.ops.adata) s.S = some (out, t.S)) ∧
    (s.ph = .adDone → exec .pt s = .next t →
      ∃ out, runEngine Config.bitOrder (ptSchedule Config.bitOrder s.ops.textIn) s.S = some (out, t.S) ∧
        t.results = s.results ++ [.textOut (List.zipWith (fun b ks => b ^^^ ks) s.ops.textIn out)]) ∧
    (s.ph = .adDone → exec .ct s = .next t →
      ∃ out, runEngine Config.bitOrder (ctSchedule Config.bitOrder s.ops.textIn) s.S = some (out, t.S) ∧
        t.results = s.results ++ [.textOut (out.take s.ops.textIn.length)])

/-- R109, R171: how many operations of each width one message costs, encrypted or decrypted, and that each is a word the
engine has a meaning for. -/
def Obligations.MessageCostsTheTabulatedOperations : Prop :=
  (∀ (o : BitOrder) (K N A P : List Byte), K.length = 16 → N.length = 16 →
    let ops := messageSchedule o K N A P
    countWord 0x4C#8 ops + countWord 0x48#8 ops + countWord 0x44#8 ops + countWord 0x40#8 ops =
        96 + A.length / 4 + P.length / 4 ∧
      countWord 0x2C#8 ops = A.length % 4 ∧ countWord 0x28#8 ops = P.length % 4 ∧
      ops.length = 96 + A.length / 4 + P.length / 4 + A.length % 4 + P.length % 4 ∧
      ∀ op ∈ ops, ∃ i, decode op.word = .ok i ∧ i.isFormatE = true) ∧
  (∀ (o : BitOrder) (K N A C : List Byte), K.length = 16 → N.length = 16 →
    let ops := decryptionSchedule o K N A C
    countWord 0x4C#8 ops + countWord 0x48#8 ops + countWord 0x44#8 ops + countWord 0x40#8 ops = 96 + A.length / 4 ∧
      countWord 0x58#8 ops = C.length / 4 ∧
      countWord 0x2C#8 ops = A.length % 4 ∧ countWord 0x38#8 ops = C.length % 4 ∧
      ops.length = 96 + A.length / 4 + C.length / 4 + A.length % 4 + C.length % 4 ∧
      ∀ op ∈ ops, ∃ i, decode op.word = .ok i ∧ i.isFormatE = true)

/-- R5, R12, R102, R106, R107: the parameters agree with each other and with the sequences the commands absorb. -/
def Obligations.ParametersAgree : Prop :=
  (∀ k, k < 7 → Config.segBase.getD (k + 1) 0 = Config.segBase.getD k 0 + Config.segLen.getD k 0) ∧
    Config.segBase.getD 7 0 = Config.stateBits ∧
    (∀ (o : BitOrder) (K N : List Byte), K.length = Config.keyBytes → N.length = Config.nonceBytes →
      (qInit o K N).length = Config.initSteps) ∧
    (∀ (cb : Bool) (S : Lfsr), trailer cb S =
      absorb (zeros (Config.trailerBits / 2)) false cb (absorb (true :: zeros (Config.trailerBits / 2 - 1)) true cb S)) ∧
    (∀ (o : BitOrder) (S : Lfsr), finTag o S = packBytes o
      (stepBits .encrypt true true (zeros Config.finTagSteps) (absorb (zeros Config.finDiscardSteps) true true S)).1) ∧
    Config.finTagSteps = 8 * Config.tagBytes ∧ Config.finDiscardSteps + Config.finTagSteps = 768

/-! ### What cannot be observed -/

/-- R101, R13: nothing of the old message survives `INIT`: its outcome does not depend on `S`, `TAG`, `OK`, `PH` or `DIR`. -/
def Obligations.InitForgetsTheOldMessage : Prop :=
  ∀ (s : State) (S : Lfsr) (tag : TagWord) (ok : Bool) (ph : Phase) (dir : Direction), s.err = false →
    wellSized .init s.ops →
    exec .init { s with S := S, tag := tag, ok := ok, ph := ph, dir := dir } = exec .init s

/-- R23: the values of `S` and `TAG` in `IDLE` (their reset values among them) cannot be observed: every run of host
commands returns the same results and shows the same status. -/
def Obligations.ResetValuesOfSAndTagAreUnobservable : Prop :=
  ∀ (n : Nat) (s : State) (S : Lfsr) (tag : TagWord), s.ph = .idle → s.HostOnly →
    ∃ a b, runSteps n s = .next a ∧ runSteps n { s with S := S, tag := tag } = .next b ∧
      a.results = b.results ∧ a.status = b.status ∧ a.pending = b.pending

/-- R38, R111: which path an operation takes, and the public state it leaves, depend on `PH`, `DIR`, `ERR` and the operand
lengths alone, never on a bit of `K`, `N`, `A`, `P`, `C`, `T`, `S` or `TAG`. -/
def Obligations.ControlDependsOnPublicDataAlone : Prop :=
  ∀ (i : Instr) (s t a b : State), s.PubliclyEqual t → exec i s = .next a → exec i t = .next b → a.PubliclyEqual b

/-- R22, R15, R16, R19: the status view places every field as tabulated, and every value of a field has its code. -/
def Obligations.StatusViewHasItsFields : Prop :=
  (∀ s : State, s.status.getLsbD 7 = s.err ∧ s.status.extractLsb' 5 2 = causeCode s.errc ∧ s.status.getLsbD 4 = s.ok ∧
    s.status.extractLsb' 3 1 = directionCode s.dir ∧ s.status.extractLsb' 0 3 = phaseCode s.ph) ∧
  (phaseCode .idle = 0#3 ∧ phaseCode .keyed = 1#3 ∧ phaseCode .adDone = 2#3 ∧ phaseCode .textDone = 3#3 ∧
    phaseCode .tagged = 4#3 ∧ phaseCode .verified = 5#3) ∧
  (directionCode .enc = 0#1 ∧ directionCode .dec = 1#1) ∧
  (causeCode .none = 0#2 ∧ causeCode .illegalCommand = 1#2 ∧ causeCode .sequence = 2#2 ∧ causeCode .length = 3#2)

/-- R47, R155: instances start in the reset state and share nothing: whatever the interleaving of their commands and resets,
each instance is where its own events alone take it from where it started. -/
def Obligations.InstancesAreIndependent : Prop :=
  (∀ n : Nat, (startInstances n).length = n ∧ ∀ k, k < n → (startInstances n)[k]? = some State.reset) ∧
    (∀ (schedule : List (Nat × InstanceEvent)) (xs : Instances) (k : Nat),
      (runInstances schedule xs)[k]? = xs[k]?.map (runInstance (eventsOf k schedule)) ∧
        (runInstances schedule xs)[k]? = (runInstances (schedule.filter (·.1 == k)) xs)[k]?)
end

