-- ==== Sys2Proof/Laws/State.lean ====
section
/-!
SUPPORT. One lemma per field of each named update of the state, so that no later proof unfolds a record update.
-/

namespace Sys2Proof.Machine

section
variable (s : State) (r : Request) (rest : List Request) (c : Cause) (f : Form) (w : Width) (ca cb : Bool) (nbits n : Nat)

/-! ### Presenting a command -/

@[simp] theorem present_S : (s.present r rest).S = s.S := rfl
@[simp] theorem present_tag : (s.present r rest).tag = s.tag := rfl
@[simp] theorem present_ok : (s.present r rest).ok = s.ok := rfl
@[simp] theorem present_ph : (s.present r rest).ph = s.ph := rfl
@[simp] theorem present_dir : (s.present r rest).dir = s.dir := rfl
@[simp] theorem present_err : (s.present r rest).err = s.err := rfl
@[simp] theorem present_errc : (s.present r rest).errc = s.errc := rfl
@[simp] theorem present_ops : (s.present r rest).ops = r.ops := rfl
@[simp] theorem present_issuer : (s.present r rest).issuer = r.issuer := rfl
@[simp] theorem present_pending : (s.present r rest).pending = rest := rfl
@[simp] theorem present_results : (s.present r rest).results = s.results := rfl

/-! ### Releasing a command's operands -/

@[simp] theorem release_S : s.release.S = s.S := rfl
@[simp] theorem release_tag : s.release.tag = s.tag := rfl
@[simp] theorem release_ok : s.release.ok = s.ok := rfl
@[simp] theorem release_ph : s.release.ph = s.ph := rfl
@[simp] theorem release_dir : s.release.dir = s.dir := rfl
@[simp] theorem release_err : s.release.err = s.err := rfl
@[simp] theorem release_errc : s.release.errc = s.errc := rfl
@[simp] theorem release_ops : s.release.ops = Operands.empty := rfl
@[simp] theorem release_issuer : s.release.issuer = .host := rfl
@[simp] theorem release_pending : s.release.pending = s.pending := rfl
@[simp] theorem release_results : s.release.results = s.results := rfl

/-! ### Taking the exception -/

@[simp] theorem raise_S : (s.raise c).S = s.S := rfl
@[simp] theorem raise_tag : (s.raise c).tag = s.tag := rfl
@[simp] theorem raise_ok : (s.raise c).ok = s.ok := rfl
@[simp] theorem raise_ph : (s.raise c).ph = s.ph := rfl
@[simp] theorem raise_dir : (s.raise c).dir = s.dir := rfl
@[simp] theorem raise_err : (s.raise c).err = true := rfl
@[simp] theorem raise_errc : (s.raise c).errc = c := rfl
@[simp] theorem raise_ops : (s.raise c).ops = s.ops := rfl
@[simp] theorem raise_issuer : (s.raise c).issuer = s.issuer := rfl
@[simp] theorem raise_pending : (s.raise c).pending = s.pending := rfl
@[simp] theorem raise_results : (s.raise c).results = s.results := rfl

/-! ### Clearing every register -/

@[simp] theorem clearAll_S : s.clearAll.S = 0#293 := rfl
@[simp] theorem clearAll_tag : s.clearAll.tag = 0#128 := rfl
@[simp] theorem clearAll_ok : s.clearAll.ok = false := rfl
@[simp] theorem clearAll_ph : s.clearAll.ph = .idle := rfl
@[simp] theorem clearAll_dir : s.clearAll.dir = .enc := rfl
@[simp] theorem clearAll_err : s.clearAll.err = false := rfl
@[simp] theorem clearAll_errc : s.clearAll.errc = .none := rfl
@[simp] theorem clearAll_ops : s.clearAll.ops = s.ops := rfl
@[simp] theorem clearAll_issuer : s.clearAll.issuer = s.issuer := rfl
@[simp] theorem clearAll_pending : s.clearAll.pending = s.pending := rfl
@[simp] theorem clearAll_results : s.clearAll.results = s.results := rfl

@[simp] theorem applyReset_eq : s.applyReset = s.clearAll := rfl

/-! ### Running an engine operation -/

@[simp] theorem engineRun_S : (s.engineRun f w ca cb).S = (engineStep f w ca cb s.ops.din s.S).2 := rfl
@[simp] theorem engineRun_tag : (s.engineRun f w ca cb).tag = s.tag := rfl
@[simp] theorem engineRun_ok : (s.engineRun f w ca cb).ok = s.ok := rfl
@[simp] theorem engineRun_ph : (s.engineRun f w ca cb).ph = s.ph := rfl
@[simp] theorem engineRun_dir : (s.engineRun f w ca cb).dir = s.dir := rfl
@[simp] theorem engineRun_err : (s.engineRun f w ca cb).err = s.err := rfl
@[simp] theorem engineRun_errc : (s.engineRun f w ca cb).errc = s.errc := rfl
@[simp] theorem engineRun_ops : (s.engineRun f w ca cb).ops = s.ops := rfl
@[simp] theorem engineRun_issuer : (s.engineRun f w ca cb).issuer = s.issuer := rfl
@[simp] theorem engineRun_pending : (s.engineRun f w ca cb).pending = s.pending := rfl
@[simp] theorem engineRun_results :
    (s.engineRun f w ca cb).results = s.results ++ [.dout w (engineStep f w ca cb s.ops.din s.S).1] := rfl

/-! ### Placing a word to be issued next -/

@[simp] theorem withFetchWord_pending : (s.withFetchWord nbits n).pending = fetchRequest nbits n :: s.pending := rfl
@[simp] theorem withFetchWord_S : (s.withFetchWord nbits n).S = s.S := rfl
@[simp] theorem withFetchWord_tag : (s.withFetchWord nbits n).tag = s.tag := rfl
@[simp] theorem withFetchWord_ok : (s.withFetchWord nbits n).ok = s.ok := rfl
@[simp] theorem withFetchWord_ph : (s.withFetchWord nbits n).ph = s.ph := rfl
@[simp] theorem withFetchWord_dir : (s.withFetchWord nbits n).dir = s.dir := rfl
@[simp] theorem withFetchWord_err : (s.withFetchWord nbits n).err = s.err := rfl
@[simp] theorem withFetchWord_errc : (s.withFetchWord nbits n).errc = s.errc := rfl
@[simp] theorem withFetchWord_ops : (s.withFetchWord nbits n).ops = s.ops := rfl
@[simp] theorem withFetchWord_issuer : (s.withFetchWord nbits n).issuer = s.issuer := rfl
@[simp] theorem withFetchWord_results : (s.withFetchWord nbits n).results = s.results := rfl

/-! ### Starting and observing a run -/

@[simp] theorem startRun_pending (commands : List Request) : (startRun commands).pending = commands := rfl
@[simp] theorem startRun_registers (commands : List Request) :
    (startRun commands).observation = State.reset.observation := rfl

end

/-! ### Several instances -/

@[simp] theorem startInstances_length (n : Nat) : (startInstances n).length = n := by simp [startInstances]

@[simp] theorem runInstance_nil (s : State) : runInstance [] s = s := rfl

@[simp] theorem runInstance_cons (e : InstanceEvent) (events : List InstanceEvent) (s : State) :
    runInstance (e :: events) s = runInstance events (instanceAfter e s) := rfl

/-- An event of instance `k` changes instance `k` alone (R47). -/
theorem stepInstance_getElem? (k j : Nat) (e : InstanceEvent) (xs : Instances) :
    (stepInstance k e xs)[j]? = if k = j then xs[j]?.map (instanceAfter e) else xs[j]? := by
  rw [stepInstance, List.getElem?_modify]
  split <;> simp

end Sys2Proof.Machine
end

