-- ==== Sys2Proof/Laws/Ops.lean ====
section
/-!
SUPPORT. What each shared operation can do, said once: the bit of `S` a write or a shift leaves, the unfolding laws of the
iterated step, and the outcomes of the checks on a command.
-/

namespace Sys2Proof.Machine

/-! ### Bits of `S` -/

/-- Working out the value of `S` first changes no result. -/
@[simp] theorem settling_eq {α : Type} (S : Lfsr) (k : Lfsr → α) : settling S k = k S := by
  unfold settling
  split <;> rfl

theorem rbit_eq (S : Lfsr) (i : Nat) : rbit S i = S.getLsbD i := rfl

/-- Two registers with the same 293 bits are the same (R11). -/
theorem lfsr_ext {S T : Lfsr} (h : ∀ i, i < 293 → rbit S i = rbit T i) : S = T :=
  BitVec.eq_of_getLsbD_eq fun i hi => h i hi

theorem rbit_of_ge (S : Lfsr) {i : Nat} (h : 293 ≤ i) : rbit S i = false :=
  BitVec.getLsbD_of_ge S i h

/-- A read after a write to the same bit gives the value written, and a write leaves every other bit alone. -/
theorem rbit_writeBit (S : Lfsr) (i j : Nat) (v : Bool) (hi : i < 293) :
    rbit (writeBit S i v) j = if j = i then v else rbit S j := by
  unfold rbit writeBit
  by_cases hj : j < 293
  · cases v <;> by_cases h : j = i <;> simp [hj, h, hi] <;> omega
  · have hne : j ≠ i := by omega
    simp [hne, BitVec.getLsbD_of_ge _ j (by omega : 293 ≤ j)]

/-- The shift moves every bit one index down and puts the new bit at 292 (R83). -/
theorem rbit_shiftIn (S : Lfsr) (v : Bool) (i : Nat) (hi : i < 293) :
    rbit (shiftIn S v) i = if i = 292 then v else rbit S (i + 1) := by
  unfold rbit shiftIn
  rw [BitVec.getLsbD_extractLsb', BitVec.getLsbD_cons]
  by_cases h : i = 292
  · simp [h]
  · simp [h, hi, Nat.add_comm]

/-! ### The iterated step -/

@[simp] theorem stepBits_nil (f : Form) (ca cb : Bool) (S : Lfsr) : stepBits f ca cb [] S = ([], S) := rfl

theorem stepBits_cons (f : Form) (ca cb b : Bool) (q : List Bool) (S : Lfsr) :
    stepBits f ca cb (b :: q) S =
      ((stepForm f b ca cb S).1 :: (stepBits f ca cb q (stepForm f b ca cb S).2).1,
       (stepBits f ca cb q (stepForm f b ca cb S).2).2) := by
  simp [stepBits]

/-- One bit is returned for each bit absorbed. -/
@[simp] theorem stepBits_length (f : Form) (ca cb : Bool) (q : List Bool) (S : Lfsr) :
    (stepBits f ca cb q S).1.length = q.length := by
  induction q generalizing S with
  | nil => rfl
  | cons b q ih => simp [stepBits_cons, ih]

/-- Iteration composes: a sequence may be split anywhere (R91). -/
theorem stepBits_append (f : Form) (ca cb : Bool) (p q : List Bool) (S : Lfsr) :
    stepBits f ca cb (p ++ q) S =
      ((stepBits f ca cb p S).1 ++ (stepBits f ca cb q (stepBits f ca cb p S).2).1,
       (stepBits f ca cb q (stepBits f ca cb p S).2).2) := by
  induction p generalizing S with
  | nil => simp
  | cons b p ih => simp [stepBits_cons, ih]

@[simp] theorem absorb_nil (ca cb : Bool) (S : Lfsr) : absorb [] ca cb S = S := rfl

theorem absorb_cons (ca cb b : Bool) (q : List Bool) (S : Lfsr) :
    absorb (b :: q) ca cb S = absorb q ca cb (stepBit b ca cb S).2 := by
  simp [absorb, stepBits_cons, stepForm]

theorem absorb_append (ca cb : Bool) (p q : List Bool) (S : Lfsr) :
    absorb (p ++ q) ca cb S = absorb q ca cb (absorb p ca cb S) := by
  simp [absorb, stepBits_append]

/-! ### The checks on a command -/

/-- The four ways a host command other than `CLR` can end (R148), each with its condition. -/
theorem hostCommand_cases {admitted lengthsOk : Bool} {done s t : State}
    (h : hostCommand admitted lengthsOk done s = .next t) :
    (s.err = true ∧ t = s) ∨
    (s.err = false ∧ admitted = false ∧ t = s.raise .sequence) ∨
    (s.err = false ∧ admitted = true ∧ lengthsOk = false ∧ t = s.raise .length) ∨
    (s.err = false ∧ admitted = true ∧ lengthsOk = true ∧ t = done) := by
  unfold hostCommand at h
  cases he : s.err <;> cases ha : admitted <;> cases hl : lengthsOk <;> simp_all

/-- An admitted, well-sized command with no fault standing is executed. -/
theorem hostCommand_done {done s : State} (h : s.err = false) : hostCommand true true done s = .next done := by
  simp [hostCommand, h]

/-- While a fault stands nothing changes (R144). -/
theorem hostCommand_faulted {admitted lengthsOk : Bool} {done s : State} (h : s.err = true) :
    hostCommand admitted lengthsOk done s = .next s := by
  simp [hostCommand, h]

/-- A host command never stops. -/
theorem hostCommand_next (admitted lengthsOk : Bool) (done s : State) :
    ∃ t, hostCommand admitted lengthsOk done s = .next t := by
  unfold hostCommand
  split
  · exact ⟨_, rfl⟩
  · split
    · exact ⟨_, rfl⟩
    · split <;> exact ⟨_, rfl⟩

/-- The three ways an engine operation can end: refused to the host (R141), ignored while a fault stands, or run. -/
theorem engineOperation_cases {f : Form} {w : Width} {ca cb : Bool} {s t : State}
    (h : engineOperation f w ca cb s = .next t) :
    (s.issuer = .host ∧ s.err = true ∧ t = s) ∨
    (s.issuer = .host ∧ s.err = false ∧ t = s.raise .illegalCommand) ∨
    (s.issuer = .controller ∧ t = s.engineRun f w ca cb) := by
  unfold engineOperation at h
  cases hi : s.issuer <;> cases he : s.err <;> simp_all [State.illegalCommand]

/-- An engine operation never stops. -/
theorem engineOperation_next (f : Form) (w : Width) (ca cb : Bool) (s : State) :
    ∃ t, engineOperation f w ca cb s = .next t := by
  unfold engineOperation
  split <;> exact ⟨_, rfl⟩

/-- A word that decodes to no operation: at the host's interface the state changes only as R141 and R144 say. -/
theorem undecodable_cases {cw : Byte} {s t : State} (h : undecodable cw s = .next t) :
    s.issuer = .host ∧ ((s.err = true ∧ t = s) ∨ (s.err = false ∧ t = s.raise .illegalCommand)) := by
  unfold undecodable at h
  cases hi : s.issuer <;> cases he : s.err <;> simp_all [State.illegalCommand]

@[simp] theorem releaseOutcome_next (s : State) : releaseOutcome (.next s) = .next s.release := rfl

theorem releaseOutcome_eq_next {x : Host.Outcome State Fault Refusal} {t : State}
    (h : releaseOutcome x = .next t) : ∃ u, x = .next u ∧ t = u.release := by
  cases x with
  | next u => exact ⟨u, rfl, by simpa [releaseOutcome] using h.symm⟩
  | fault f => exact nomatch f
  | refused r => simp [releaseOutcome] at h

end Sys2Proof.Machine
end

