-- ==== Sys2Proof/Laws/Operands.lean ====
section
/-!
SUPPORT. The operand conversions: lengths, concatenation, and that packing undoes expansion (R34, R35).
-/

namespace Sys2Proof.Machine

@[simp] theorem wordBits_length {n : Nat} (o : BitOrder) (w : Nat) (W : BitVec n) : (wordBits o w W).length = w := by
  cases o <;> simp [wordBits]

@[simp] theorem bitsOf_length (o : BitOrder) (B : Byte) : (bitsOf o B).length = 8 := wordBits_length o 8 B

@[simp] theorem bitsOfBytes_nil (o : BitOrder) : bitsOfBytes o [] = [] := rfl

@[simp] theorem bitsOfBytes_cons (o : BitOrder) (B : Byte) (X : List Byte) :
    bitsOfBytes o (B :: X) = bitsOf o B ++ bitsOfBytes o X := rfl

theorem bitsOfBytes_append (o : BitOrder) (X Y : List Byte) :
    bitsOfBytes o (X ++ Y) = bitsOfBytes o X ++ bitsOfBytes o Y := by
  simp [bitsOfBytes]

@[simp] theorem bitsOfBytes_length (o : BitOrder) (X : List Byte) : (bitsOfBytes o X).length = 8 * X.length := by
  induction X with
  | nil => rfl
  | cons B X ih => simp [ih]; omega

/-- A list of eight bits, element by element. -/
theorem eight_bits {q : List Bool} (h : q.length = 8) :
    ∃ b0 b1 b2 b3 b4 b5 b6 b7, q = [b0, b1, b2, b3, b4, b5, b6, b7] := by
  match q, h with
  | [b0, b1, b2, b3, b4, b5, b6, b7], _ => exact ⟨b0, b1, b2, b3, b4, b5, b6, b7, rfl⟩

/-- Packing eight bits and expanding the byte again gives the bits back (R34). -/
theorem bitsOf_bitsWord (o : BitOrder) (q : List Bool) (h : q.length = 8) : bitsOf o (bitsWord o 8 q) = q := by
  obtain ⟨b0, b1, b2, b3, b4, b5, b6, b7, rfl⟩ := eight_bits h
  revert b0 b1 b2 b3 b4 b5 b6 b7
  cases o <;> decide

/-- Expanding a byte and packing the bits again gives the byte back (R34). -/
theorem bitsWord_bitsOf (o : BitOrder) (B : Byte) : bitsWord o 8 (bitsOf o B) = B := by
  revert B
  cases o <;> decide +kernel

theorem packBytes_append_eight (o : BitOrder) (p q : List Bool) (h : p.length = 8) :
    packBytes o (p ++ q) = bitsWord o 8 p :: packBytes o q := by
  obtain ⟨b0, b1, b2, b3, b4, b5, b6, b7, rfl⟩ := eight_bits h
  simp [packBytes]

/-- Packing undoes expansion (R34). -/
@[simp] theorem packBytes_bitsOfBytes (o : BitOrder) (X : List Byte) : packBytes o (bitsOfBytes o X) = X := by
  induction X with
  | nil => rfl
  | cons B X ih => rw [bitsOfBytes_cons, packBytes_append_eight o _ _ (bitsOf_length o B), bitsWord_bitsOf, ih]

/-- A sequence of `8n` bits packs into `n` bytes (R34). -/
theorem packBytes_length (o : BitOrder) (n : Nat) (q : List Bool) (h : q.length = 8 * n) :
    (packBytes o q).length = n := by
  induction n generalizing q with
  | zero =>
    obtain rfl : q = [] := List.eq_nil_of_length_eq_zero (by omega)
    rfl
  | succ n ih =>
    rw [← List.take_append_drop 8 q, packBytes_append_eight o _ _ (by simp; omega), List.length_cons,
      ih _ (by simp; omega)]

/-- Expansion undoes packing for whole bytes (R34). -/
theorem bitsOfBytes_packBytes (o : BitOrder) (n : Nat) (q : List Bool) (h : q.length = 8 * n) :
    bitsOfBytes o (packBytes o q) = q := by
  induction n generalizing q with
  | zero =>
    obtain rfl : q = [] := List.eq_nil_of_length_eq_zero (by omega)
    rfl
  | succ n ih =>
    have h8 : (q.take 8).length = 8 := by simp; omega
    calc bitsOfBytes o (packBytes o q)
        = bitsOfBytes o (packBytes o (q.take 8 ++ q.drop 8)) := by rw [List.take_append_drop]
      _ = q.take 8 ++ q.drop 8 := by
          rw [packBytes_append_eight o _ _ h8, bitsOfBytes_cons, bitsOf_bitsWord o _ h8, ih _ (by simp; omega)]
      _ = q := List.take_append_drop 8 q

@[simp] theorem tagBytes_length (t : TagWord) : (tagBytes t).length = 16 := by simp [tagBytes, Config.tagBytes]

@[simp] theorem withinLenMax_eq (n : Nat) : withinLenMax n = true := rfl

@[simp] theorem initLengthsOk_iff (x : Operands) :
    initLengthsOk x = true ↔ x.key.length = 16 ∧ x.nonce.length = 16 := by
  simp [initLengthsOk, Config.keyBytes, Config.nonceBytes]

@[simp] theorem cmpLengthOk_iff (x : Operands) : cmpLengthOk x = true ↔ x.tagIn.length = 16 := by
  simp [cmpLengthOk, Config.tagBytes]

end Sys2Proof.Machine
end

