-- ==== Sys2Proof/Laws/Step.lean ====
section
/-!
SUPPORT. What one step can do, said once.
-/

namespace Sys2Proof.Machine

@[simp] theorem runSteps_zero (s : State) : runSteps 0 s = .next s := rfl

/-- A run goes on from the state its first step gives. -/
theorem runSteps_succ {s t : State} (n : Nat) (h : step s = .next t) : runSteps (n + 1) s = runSteps n t := by
  simp [runSteps, h]

/-- Whatever step answers a next state, either nothing was to be issued, or the head command was presented, its word
decoded to an operation that was executed, or the host's word selected none (R148). -/
theorem step_cases {s t : State} (h : step s = .next t) :
    (s.pending = [] ∧ t = s) ∨
    (∃ r rest i u, s.pending = r :: rest ∧ decode r.word = .ok i ∧ exec i (s.present r rest) = .next u ∧
      (r.issuer = .host ∨ i.isFormatE = true) ∧ t = u.release) ∨
    (∃ r rest e, s.pending = r :: rest ∧ decode r.word = .error e ∧ r.issuer = .host ∧
      t = (s.present r rest).illegalCommand.release) := by
  unfold step at h
  split at h
  · next hp => exact .inl ⟨hp, by simpa using h.symm⟩
  · next r rest hp =>
    obtain ⟨u, hu, rfl⟩ := releaseOutcome_eq_next h
    unfold issueWord at hu
    split at hu
    · next i hd =>
      split at hu
      · simp at hu
      · next hg =>
        refine .inr (.inl ⟨r, rest, i, u, hp, hd, hu, ?_, rfl⟩)
        cases hi : r.issuer with
        | host => exact .inl rfl
        | controller =>
          cases hf : i.isFormatE with
          | true => exact .inr rfl
          | false => simp [hostWordAtEngine, hi, hf] at hg
    · next e hd =>
      unfold undecodable at hu
      cases hi : r.issuer with
      | host =>
        refine .inr (.inr ⟨r, rest, e, hp, hd, hi, ?_⟩)
        simp only [present_issuer, hi] at hu
        cases hu
        rfl
      | controller => simp [hi] at hu

end Sys2Proof.Machine
end

