-- ==== Sys2Proof/Laws/Exec.lean ====
section
/-!
SUPPORT. What an operation can do, said once for all of them: the ten ways `exec` can end.
-/

namespace Sys2Proof.Machine

/-- `t` is one of the states the rules allow an operation to leave: nothing changed (a fault stands), an exception taken
(R148), an engine operation run for the controller, or the effect of the host command `i`. -/
inductive Effect (i : Instr) (s : State) : State → Prop where
  | unchanged : Effect i s s
  | raised (c : Cause) (he : s.err = false) (hc : c ≠ .none) : Effect i s (s.raise c)
  | engine (f : Form) (w : Width) (ca cb : Bool) (hf : i.isFormatE = true) (hi : s.issuer = .controller) :
      Effect i s (s.engineRun f w ca cb)
  | cleared (h : i = .clr) : Effect i s s.clearAll
  | init (h : i = .init) (he : s.err = false) :
      Effect i s { s with
        S := initS Config.bitOrder s.ops.key s.ops.nonce, tag := 0#128, ok := false, dir := .enc, ph := .keyed }
  | ad (h : i = .ad) (he : s.err = false) (hp : s.ph = .keyed) :
      Effect i s { s with S := adS Config.bitOrder s.ops.adata s.S, ph := .adDone }
  | text (d : Direction) (r : List Byte × Lfsr) (he : s.err = false) (hp : s.ph = .adDone)
      (h : (i = .pt ∧ d = .enc ∧ r = ptText Config.bitOrder s.ops.textIn s.S) ∨
        (i = .ct ∧ d = .dec ∧ r = ctText Config.bitOrder s.ops.textIn s.S)) :
      Effect i s { s with S := r.2, dir := d, ph := .textDone, results := s.results ++ [.textOut r.1] }
  | fin (h : i = .fin) (he : s.err = false) (hp : s.ph = .textDone) :
      Effect i s { s with
        S := 0#293, tag := tagOfBytes (finTag Config.bitOrder s.S), ph := .tagged,
        results := s.results ++ finResult s.dir (finTag Config.bitOrder s.S) }
  | cmp (h : i = .cmp) (he : s.err = false) (hp : s.ph = .tagged) (hd : s.dir = .dec) :
      Effect i s { s with
        ok := tagMatches s.ops.tagIn s.tag, tag := 0#128, ph := .verified,
        results := s.results ++ [.okOut (tagMatches s.ops.tagIn s.tag)] }

theorem engineOperation_effect {i : Instr} {f : Form} {w : Width} {ca cb : Bool} {s t : State}
    (hf : i.isFormatE = true) (h : engineOperation f w ca cb s = .next t) : Effect i s t := by
  rcases engineOperation_cases h with ⟨_, _, rfl⟩ | ⟨_, he, rfl⟩ | ⟨hi, rfl⟩
  · exact .unchanged
  · exact .raised _ he (by simp)
  · exact .engine _ _ _ _ hf hi

/-- A host command ends unchanged, in an exception, or in the effect of its own rule when admitted. -/
theorem hostCommand_effect {i : Instr} {admitted lengthsOk : Bool} {done s t : State}
    (hdone : s.err = false → admitted = true → Effect i s done)
    (h : hostCommand admitted lengthsOk done s = .next t) : Effect i s t := by
  rcases hostCommand_cases h with ⟨_, rfl⟩ | ⟨he, _, rfl⟩ | ⟨he, _, _, rfl⟩ | ⟨he, ha, _, rfl⟩
  · exact .unchanged
  · exact .raised _ he (by simp)
  · exact .raised _ he (by simp)
  · exact hdone he ha

/-- Every next state `exec` answers is an effect of the operation. -/
theorem exec_effect {i : Instr} {s t : State} (h : exec i s = .next t) : Effect i s t := by
  cases i with
  | step1 ca cb => exact engineOperation_effect rfl h
  | step1d ca cb => exact engineOperation_effect rfl h
  | step8 ca cb => exact engineOperation_effect rfl h
  | step8d ca cb => exact engineOperation_effect rfl h
  | step32 ca cb => exact engineOperation_effect rfl h
  | step32d ca cb => exact engineOperation_effect rfl h
  | clr => cases h; exact .cleared rfl
  | init => exact hostCommand_effect (fun he _ => .init rfl he) h
  | ad => exact hostCommand_effect (fun he ha => .ad rfl he (by simpa using ha)) h
  | pt => exact hostCommand_effect (fun he ha => .text .enc _ he (by simpa using ha) (.inl ⟨rfl, rfl, rfl⟩)) h
  | ct => exact hostCommand_effect (fun he ha => .text .dec _ he (by simpa using ha) (.inr ⟨rfl, rfl, rfl⟩)) h
  | fin => exact hostCommand_effect (fun he ha => .fin rfl he (by simpa using ha)) h
  | cmp =>
    refine hostCommand_effect (fun he ha => ?_) h
    have hpd : s.ph = .tagged ∧ s.dir = .dec := by simpa using ha
    exact .cmp rfl he hpd.1 hpd.2

/-- No operation changes the commands to come. -/
theorem exec_pending {i : Instr} {s t : State} (h : exec i s = .next t) : t.pending = s.pending := by
  cases exec_effect h <;> rfl

end Sys2Proof.Machine
end

