-- ==== Sys2Proof/Laws/Index.lean ====
section
/-!
SUPPORT. The list form of the meanings and the index form of the statements, related once: a run over a bit sequence is the
run over its bits by index, and bit `k` of a byte sequence is bit `k mod 8` of byte `k div 8` (R34, R91).
-/

namespace Sys2Proof.Machine

/-- Running on shifted bits from the state after one step is running one step longer. -/
theorem stateAfter_shift (f : Form) (ca cb : Bool) (b : Nat → Bool) (S : Lfsr) (n : Nat) :
    stateAfter f ca cb (fun k => b (k + 1)) (stepForm f (b 0) ca cb S).2 n = stateAfter f ca cb b S (n + 1) := by
  induction n with
  | zero => rfl
  | succ n ih => simp only [stateAfter] at ih ⊢; rw [ih]

/-- Running composes. -/
theorem stateAfter_add (f : Form) (ca cb : Bool) (b : Nat → Bool) (S : Lfsr) (m n : Nat) :
    stateAfter f ca cb b S (m + n) = stateAfter f ca cb (fun k => b (m + k)) (stateAfter f ca cb b S m) n := by
  induction n with
  | zero => rfl
  | succ n ih => rw [← Nat.add_assoc]; simp only [stateAfter, ih]

/-- Only the bits up to the last step matter. -/
theorem stateAfter_congr {f : Form} {ca cb : Bool} {b b' : Nat → Bool} {S : Lfsr} {n : Nat}
    (h : ∀ k, k < n → b k = b' k) : stateAfter f ca cb b S n = stateAfter f ca cb b' S n := by
  induction n with
  | zero => rfl
  | succ n ih => simp only [stateAfter, ih fun k hk => h k (by omega), h n (by omega)]

theorem bitReturned_congr {f : Form} {ca cb : Bool} {b b' : Nat → Bool} {S : Lfsr} {n : Nat}
    (h : ∀ k, k ≤ n → b k = b' k) : bitReturned f ca cb b S n = bitReturned f ca cb b' S n := by
  have hs : stateAfter f ca cb b S n = stateAfter f ca cb b' S n := stateAfter_congr fun k hk => h k (by omega)
  simp only [bitReturned, h n (by omega), hs]

/-- `S` after a bit sequence, by index. -/
theorem stepBits_state (f : Form) (ca cb : Bool) (q : List Bool) (S : Lfsr) :
    (stepBits f ca cb q S).2 = stateAfter f ca cb (fun k => q.getD k false) S q.length := by
  induction q generalizing S with
  | nil => rfl
  | cons b q ih =>
    rw [stepBits_cons, ih, List.length_cons, ← stateAfter_shift]
    rfl

/-- The bits returned for a bit sequence, by index. -/
theorem stepBits_bit (f : Form) (ca cb : Bool) (q : List Bool) (S : Lfsr) (k : Nat) (hk : k < q.length) :
    (stepBits f ca cb q S).1.getD k false = bitReturned f ca cb (fun k => q.getD k false) S k := by
  induction q generalizing S k with
  | nil => simp at hk
  | cons b q ih =>
    rw [stepBits_cons]
    cases k with
    | zero => rfl
    | succ k =>
      have h := ih (stepForm f b ca cb S).2 k (by simpa using hk)
      simp only [List.getD_cons_succ, h, bitReturned]
      congr 2
      exact stateAfter_shift f ca cb (fun k => (b :: q).getD k false) S k

/-- `S` after absorbing a bit sequence, by index (R100). -/
theorem absorb_state (q : List Bool) (ca cb : Bool) (S : Lfsr) :
    absorb q ca cb S = stateAfter .encrypt ca cb (fun k => q.getD k false) S q.length :=
  stepBits_state .encrypt ca cb q S

/-- The expansion of a byte sequence, by index, under the spec's bit order (R33, R34). -/
theorem bitsOfBytes_getD (X : List Byte) (k : Nat) (hk : k < 8 * X.length) :
    (bitsOfBytes .lsbFirst X).getD k false = byteBit X k := by
  induction X generalizing k with
  | nil => simp at hk
  | cons B X ih =>
    rw [bitsOfBytes_cons]
    by_cases h8 : k < 8
    · rw [List.getD_append _ _ _ _ (by simpa using h8)]
      have hdiv : k / 8 = 0 := by omega
      have hmod : k % 8 = k := by omega
      simp [bitsOf, wordBits, byteBit, hdiv, hmod, List.getD_eq_getElem?_getD, h8]
    · rw [List.getD_append_right _ _ _ _ (by simpa using Nat.le_of_not_lt h8), bitsOf_length, ih (k - 8) (by simp at hk; omega)]
      have hdiv : k / 8 = (k - 8) / 8 + 1 := by omega
      have hmod : k % 8 = (k - 8) % 8 := by omega
      simp [byteBit, hdiv, hmod]

@[simp] theorem zeros_length (n : Nat) : (zeros n).length = n := by simp [zeros]

@[simp] theorem zeros_getD (n k : Nat) : (zeros n).getD k false = false := by
  rw [zeros, List.getD_eq_getElem?_getD, List.getElem?_replicate]
  split <;> rfl

/-- The trailer by the rows of R108. -/
theorem trailer_state (cb : Bool) (S : Lfsr) : trailer cb S = stateAfterTrailer cb S := by
  have h1 : ∀ T : Lfsr, absorb (zeros 127) true cb (absorb [true] true cb T) =
      stateAfter .encrypt true cb (fun k => k == 0) T 128 := by
    intro T
    rw [← absorb_append, absorb_state]
    refine stateAfter_congr fun k _ => ?_
    cases k with
    | zero => rfl
    | succ k => exact zeros_getD 127 k
  rw [trailer, h1, absorb_state, stateAfterTrailer, zeros_length]
  exact stateAfter_congr fun k _ => zeros_getD 128 k

end Sys2Proof.Machine
end

