-- ==== Sys2Proof/Laws/PerInstr.lean ====
section
/-!
SUPPORT. Per-instruction facts about the syntax: the word the encoder gives an operation selects that operation's row of
the opcode map (R54), whatever its control bits.
-/

namespace Sys2Proof.Laws.WordSelectsItsRow

/-- The encoded word selects a row with the operation's mnemonic. -/
def Statement (i : Instr) : Prop :=
  ∃ r ∈ opcodeTable, r.mnemonic = i.mnemonic ∧ r.selects (encode i) = true

theorem step1 (ca cb : Bool) : Statement (.step1 ca cb) :=
  ⟨⟨"STEP1", 0x00#8, 0xF3#8⟩, by decide, rfl, by cases ca <;> cases cb <;> decide⟩

theorem step1d (ca cb : Bool) : Statement (.step1d ca cb) :=
  ⟨⟨"STEP1D", 0x10#8, 0xF3#8⟩, by decide, rfl, by cases ca <;> cases cb <;> decide⟩

theorem step8 (ca cb : Bool) : Statement (.step8 ca cb) :=
  ⟨⟨"STEP8", 0x20#8, 0xF3#8⟩, by decide, rfl, by cases ca <;> cases cb <;> decide⟩

theorem step8d (ca cb : Bool) : Statement (.step8d ca cb) :=
  ⟨⟨"STEP8D", 0x30#8, 0xF3#8⟩, by decide, rfl, by cases ca <;> cases cb <;> decide⟩

theorem step32 (ca cb : Bool) : Statement (.step32 ca cb) :=
  ⟨⟨"STEP32", 0x40#8, 0xF3#8⟩, by decide, rfl, by cases ca <;> cases cb <;> decide⟩

theorem step32d (ca cb : Bool) : Statement (.step32d ca cb) :=
  ⟨⟨"STEP32D", 0x50#8, 0xF3#8⟩, by decide, rfl, by cases ca <;> cases cb <;> decide⟩

theorem clr : Statement .clr := ⟨⟨"CLR", 0x80#8, 0xFF#8⟩, by decide, rfl, by decide⟩

theorem init : Statement .init := ⟨⟨"INIT", 0x81#8, 0xFF#8⟩, by decide, rfl, by decide⟩

theorem ad : Statement .ad := ⟨⟨"AD", 0x82#8, 0xFF#8⟩, by decide, rfl, by decide⟩

theorem pt : Statement .pt := ⟨⟨"PT", 0x83#8, 0xFF#8⟩, by decide, rfl, by decide⟩

theorem ct : Statement .ct := ⟨⟨"CT", 0x84#8, 0xFF#8⟩, by decide, rfl, by decide⟩

theorem fin : Statement .fin := ⟨⟨"FIN", 0x85#8, 0xFF#8⟩, by decide, rfl, by decide⟩

theorem cmp : Statement .cmp := ⟨⟨"CMP", 0x86#8, 0xFF#8⟩, by decide, rfl, by decide⟩

end Sys2Proof.Laws.WordSelectsItsRow
end

