-- ==== Sys2Proof/Tests/Slice0.lean ====
section
/-!
SUPPORT. Tests and witnesses. Every expected value is taken from `spec/95_test_vectors.md` (the section is named at each
test) or from the encoding tables of `spec/30_encoding.md`. The witnesses show that the hypotheses of the statements in
`Certificates/Slice0/Obligations.lean` can be met.
-/

namespace Sys2Proof.Tests

open Sys2Proof.Machine

/-! ### Well-formedness: one ill-formed word for each check of R55 -/

theorem test_reserved_width_is_ill_formed : (RawWord.formatE 3#2 false true true 0#2).widthAssigned = false := by decide

theorem test_reserved_bits_e_are_ill_formed : (RawWord.formatE 0#2 false true true 1#2).zeroBitsClear = false := by decide

theorem test_reserved_bits_h_are_ill_formed : (RawWord.formatH 1#3 0#4).zeroBitsClear = false := by decide

theorem test_unassigned_op_is_ill_formed : (RawWord.formatH 0#3 7#4).opAssigned = false := by decide

theorem test_assigned_words_are_well_formed :
    (RawWord.formatE 2#2 true true false 0#2).wellFormed = true ∧ (RawWord.formatH 0#3 6#4).wellFormed = true := by
  decide

/-! ### Decoding: every operation by a word written out from R51, R52, R54 -/

theorem test_decode_step1 : decode 0b00001000#8 = .ok (.step1 true false) := by rfl

theorem test_decode_step1d : decode 0b00010100#8 = .ok (.step1d false true) := by rfl

theorem test_decode_step8 : decode 0b00101100#8 = .ok (.step8 true true) := by rfl

theorem test_decode_step8d : decode 0b00110000#8 = .ok (.step8d false false) := by rfl

theorem test_decode_step32 : decode 0b01000100#8 = .ok (.step32 false true) := by rfl

theorem test_decode_step32d : decode 0b01011000#8 = .ok (.step32d true false) := by rfl

theorem test_decode_clr : decode 0b10000000#8 = .ok .clr := by rfl

theorem test_decode_init : decode 0b10000001#8 = .ok .init := by rfl

theorem test_decode_ad : decode 0b10000010#8 = .ok .ad := by rfl

theorem test_decode_pt : decode 0b10000011#8 = .ok .pt := by rfl

theorem test_decode_ct : decode 0b10000100#8 = .ok .ct := by rfl

theorem test_decode_fin : decode 0b10000101#8 = .ok .fin := by rfl

theorem test_decode_cmp : decode 0b10000110#8 = .ok .cmp := by rfl

/-- V13: reserved words of each class. -/
theorem test_decode_reserved :
    decode 0x4D#8 = .error .reservedBitsE ∧ decode 0x6C#8 = .error .reservedWidth ∧
      decode 0xC1#8 = .error .reservedBitsH ∧ decode 0x8F#8 = .error .unassignedOp := ⟨rfl, rfl, rfl, rfl⟩

/-- R54: the words of the control pairs the rule writes out. -/
theorem test_encode_control_pairs : encode (.step32 true true) = 0x4C#8 ∧ encode (.step8d true false) = 0x38#8 := by
  decide

theorem test_decode_table_word : decodeTableWord 8 0x58 = some (.step32d true false) ∧ decodeTableWord 8 0x87 = none := by
  exact ⟨rfl, rfl⟩

/-! ### Bits, bytes, words -/

/-- V10: the operand of the `STEP8` row in time order, under both word conventions (R35). -/
theorem test_time_order :
    bitsOf .lsbFirst 0x07#8 = [true, true, true, false, false, false, false, false] ∧
      bitsOf .msbFirst 0xE0#8 = [true, true, true, false, false, false, false, false] := by decide

/-- R109: `FIRST` under both bit orders. -/
theorem test_first_word : firstWord .lsbFirst = 0x00000001#32 ∧ firstWord .msbFirst = 0x80000000#32 := by decide

/-- Program 5: the little-endian word of four bytes (R35). -/
theorem test_bytes_word : bytesWord .lsbFirst 0xEF#8 0xBE#8 0xAD#8 0xDE#8 = 0xDEADBEEF#32 := by decide

/-! ### Small states to start from -/

/-- `S0` of V10: the state `INIT` leaves for an all-zero key and nonce. -/
def S0 : Lfsr := 0x1f76f2d0aa3ab351a2169ea214673a6bb9b8c4f682c78bc4204a3aa2d05e42539def4fc67b#293

/-- The next state of an outcome. -/
def nextOf (x : Host.Outcome State Fault Refusal) : Option State :=
  match x with
  | .next t => some t
  | .fault _ => none
  | .refused _ => none

/-- The engine alone: the controller presents an operation on the word `din`. -/
def engineAt (S : Lfsr) (din : Word32) : State :=
  { State.reset with S := S, issuer := .controller, ops := { Operands.empty with din := din } }

/-- What an engine operation returns and leaves in `S`. -/
def engineSees (x : Host.Outcome State Fault Refusal) : Option (List Result × Lfsr) :=
  (nextOf x).map fun t => (t.results, t.S)

/-- A message in progress. -/
def messageAt (ph : Phase) (dir : Direction) (S : Lfsr) (x : Operands) : State :=
  { State.reset with ph := ph, dir := dir, S := S, ops := x }

/-- The bytes `a, a+1, …` of S1 and V6. -/
def ascending (a n : Nat) : List Byte := (List.range n).map fun i => BitVec.ofNat 8 (a + i)

/-! ### The engine (V9, V10, V11) -/

theorem test_step1 : engineSees (exec (.step1 true true) (engineAt S0 1#32)) =
    some ([.dout .bits1 1#32], 0x0fbb7968551d59a8f10b4f510b339d35dcde627b4163c5e210251d51683f2129cef7a7e33d#293) := by
  decide +kernel

/-- V9, row 107: the tap XOR target, complement and `cb ∧ ks` terms. -/
theorem test_step1_unit_state : engineSees (exec (.step1 true true) (engineAt (1#293 <<< 107) 0#32)) =
    some ([.dout .bits1 1#32], (1#293 <<< 106) ||| (1#293 <<< 153) ||| (1#293 <<< 292)) := by
  decide +kernel

theorem test_step1d : engineSees (exec (.step1d true true) (engineAt S0 1#32)) =
    some ([.dout .bits1 0#32], 0x1fbb7968551d59a8f10b4f510b339d35dcde627b4163c5e210251d51683f2129cef7a7e33d#293) := by
  decide +kernel

theorem test_step8 : engineSees (exec (.step8 true false) (engineAt S0 0xA5#32)) =
    some ([.dout .bits8 0x07#32], 0x1ee776f2d0aa3ab35b62169ea3ba673a6bb804c4f682c78a74204a3aa2c4fe42539def4fc6#293) := by
  decide +kernel

theorem test_step8d : engineSees (exec (.step8d false true) (engineAt S0 0xA5#32)) =
    some ([.dout .bits8 0xA2#32], 0x1ac776f2d0aa3ab35b62169ea3ba673a6bb804c4f682c78a74204a3aa2c4fe42539def4fc6#293) := by
  decide +kernel

theorem test_step32 : engineSees (exec (.step32 true false) (engineAt S0 0xDEADBEEF#32)) =
    some ([.dout .bits32 0x68703C07#32],
      0x0a50fa01a776f2d0a0b31d9b6345dfa9ba67cf1e4004c4f4981a7a74204747bd64fe42539d#293) := by
  decide +kernel

theorem test_step32d : engineSees (exec (.step32d true false) (engineAt S0 0xB6DD82E8#32)) =
    some ([.dout .bits32 0xDEADBEEF#32],
      0x0a50fa01a776f2d0a0b31d9b6345dfa9ba67cf1e4004c4f4981a7a74204747bd64fe42539d#293) := by
  decide +kernel

/-- V14, first row: a format-E word from the host. -/
theorem test_engine_word_from_host :
    (nextOf (exec (.step32 true true) State.reset)).map State.status = some 0xA0#8 := by decide +kernel

/-- V1: the packed view of `S` after `INIT` of S1. -/
theorem test_packed_view :
    toSegments 0x07174a30e754738c5cb5978569c179f8ab77be0ba145f92e2f599a91258cd9c16cf559652c#293 =
      { lfsr0 := 0xcd9c16cf559652c#61, lfsr1 := 0x317accd4892c#46, lfsr2 := 0x77c17428bf25#47, lfsr3 := 0x705e7e2add#39,
        lfsr4 := 0xe5acbc2b4#37, lfsr5 := 0x45d28c39d51ce31#59, lfsr6 := 0x3#4 } := by
  decide +kernel

/-- V10: the word-parallel form on the `STEP32 1,1, 0` row (R92). -/
theorem test_word_parallel : bulkStep .encrypt 32 true true 0#32 S0 =
    (0x68703C07#32, 0x1c8b4a5ca776f2d0a0b31d9b6345dfa9ba67cf1e4004c4f4981a7a74204747bd64fe42539d#293) := by
  decide +kernel

/-! ### Scenario S1 (DOC0's worked example; the states between its phases are V1's): R168 -/

/-- `K` and `A` of S1. -/
def keyS1 : List Byte := ascending 0 16

/-- `N` of S1. -/
def nonceS1 : List Byte := (List.range 16).map fun i => BitVec.ofNat 8 (0xFF - i)

/-- `P` of S1. -/
def textS1 : List Byte := ascending 0 32

/-- The expected `C` of S1. -/
def cipherS1 : List Byte :=
  [0xB4#8, 0x2E#8, 0x4D#8, 0xCA#8, 0x2A#8, 0xCE#8, 0xFD#8, 0xEC#8,
   0x58#8, 0xDA#8, 0x84#8, 0x9A#8, 0x2D#8, 0xEC#8, 0xAC#8, 0xE7#8,
   0x95#8, 0x27#8, 0x06#8, 0x88#8, 0x1F#8, 0xEF#8, 0x46#8, 0xB8#8,
   0xAB#8, 0xD3#8, 0x9D#8, 0x3A#8, 0xC0#8, 0x2A#8, 0x9F#8, 0x41#8]

/-- The tag of S1. -/
def tagS1 : List Byte :=
  [0x06#8, 0x28#8, 0x80#8, 0x70#8, 0xF2#8, 0xF0#8, 0x6B#8, 0x8F#8,
   0x31#8, 0xEA#8, 0xA9#8, 0x03#8, 0x41#8, 0xF0#8, 0x80#8, 0xA5#8]

/-- `S` after `INIT`. -/
def initS1 : Lfsr := 0x07174a30e754738c5cb5978569c179f8ab77be0ba145f92e2f599a91258cd9c16cf559652c#293

/-- `S` after `AD`. -/
def adS1 : Lfsr := 0x0d609926986a07f6f89648bbd277aea65b00b3965f9002ab8a5ff4455b477e02639c087477#293

/-- `S` after `PT`, and after `CT`. -/
def ptS1 : Lfsr := 0x14c0830c42779bc12e3cb6b05392d1046beac93d44386481e7fd4b5343db4ff04194d536e4#293

theorem s1_after_init : initS .lsbFirst keyS1 nonceS1 = initS1 := by decide +kernel

theorem s1_after_ad : adS .lsbFirst keyS1 initS1 = adS1 := by decide +kernel

theorem s1_after_pt : ptText .lsbFirst textS1 adS1 = (cipherS1, ptS1) := by decide +kernel

theorem s1_after_ct : ctText .lsbFirst cipherS1 adS1 = (textS1, ptS1) := by decide +kernel

theorem s1_tag : finTag .lsbFirst ptS1 = tagS1 := by decide +kernel

/-- S1: `ENCRYPT` gives DOC0's expected `C` and `T`, all 48 bytes. -/
theorem test_s1_encrypt : encryptValue .lsbFirst keyS1 nonceS1 keyS1 textS1 = (cipherS1, tagS1) := by
  simp only [encryptValue, s1_after_init, s1_after_ad, s1_after_pt, s1_tag]

/-- S1 decrypted: `(P, 1)`. -/
theorem test_s1_decrypt : decryptValue .lsbFirst keyS1 nonceS1 keyS1 cipherS1 tagS1 = (textS1, true) := by
  simp only [decryptValue, s1_after_init, s1_after_ad, s1_after_ct, s1_tag, Prod.mk.injEq, true_and]
  decide +kernel

/-- S1: the `INIT` command. -/
theorem test_init : (nextOf (exec .init { State.reset with
      ops := { Operands.empty with key := keyS1, nonce := nonceS1 } })).map (fun t => (t.ph, t.S)) =
    some (.keyed, initS1) := by
  have h : initLengthsOk { Operands.empty with key := keyS1, nonce := nonceS1 } = true := by decide
  simp [exec, execInit, hostCommand, h, nextOf, State.reset, Config.bitOrder, s1_after_init]

/-! ### The phases (V6; keys of S1) -/

/-- V14: a mis-sized nonce. -/
theorem test_init_length :
    (nextOf (exec .init { State.reset with
      ops := { Operands.empty with key := ascending 0 16, nonce := ascending 0 15 } })).map State.status = some 0xE0#8 := by
  decide +kernel

/-- V6: five bytes of associated data, from the `S` after `INIT` of S1 (V1). -/
theorem test_ad : (nextOf (exec .ad (messageAt .keyed .enc initS1
      { Operands.empty with adata := ascending 0xA0 5 }))).map (fun t => (t.ph, t.S)) =
    some (.adDone, 0x0e2b88f06f6a91d2990d63e7ec275f293f9e9c9951d7799c6adac1b20a7a07209568a80e6e#293) := by
  decide +kernel

/-- V6: three bytes of text. -/
theorem test_pt : (nextOf (exec .pt (messageAt .adDone .enc
      0x0e2b88f06f6a91d2990d63e7ec275f293f9e9c9951d7799c6adac1b20a7a07209568a80e6e#293
      { Operands.empty with textIn := ascending 0x50 3 }))).map (fun t => (t.results, t.S)) =
    some ([.textOut [0x1B#8, 0xAF#8, 0x02#8]],
      0x10a72513ea570a51fe10126aad83df576ead795dee7064f11a70c3c4028a026eb1c0bb5504#293) := by
  decide +kernel

/-- V6 decrypted: program 6's last paragraph. -/
theorem test_ct : (nextOf (exec .ct (messageAt .adDone .enc
      0x0e2b88f06f6a91d2990d63e7ec275f293f9e9c9951d7799c6adac1b20a7a07209568a80e6e#293
      { Operands.empty with textIn := [0x1B#8, 0xAF#8, 0x02#8] }))).map (fun t => (t.status, t.results, t.S)) =
    some (0x0B#8, [.textOut (ascending 0x50 3)],
      0x10a72513ea570a51fe10126aad83df576ead795dee7064f11a70c3c4028a026eb1c0bb5504#293) := by
  decide +kernel

/-- V6: the tag, returned because `DIR = ENC`. -/
theorem test_fin : (nextOf (exec .fin (messageAt .textDone .enc
      0x10a72513ea570a51fe10126aad83df576ead795dee7064f11a70c3c4028a026eb1c0bb5504#293 Operands.empty))).map
        (fun t => (t.status, t.results, t.S)) =
    some (0x04#8, [.tagOut [0xAA#8, 0xB0#8, 0xCC#8, 0x41#8, 0x98#8, 0x6D#8, 0xD1#8, 0x3F#8,
      0xA9#8, 0x21#8, 0x5E#8, 0x8F#8, 0x0F#8, 0x51#8, 0xEF#8, 0x0F#8]], 0#293) := by
  decide +kernel

/-! ### The comparator and the exceptions (V12, V14) -/

/-- A decryption whose tag has been recomputed. -/
def comparing (T : List Byte) : State :=
  { State.reset with ph := .tagged, dir := .dec, tag := tagOfBytes tagS1, ops := { Operands.empty with tagIn := T } }

/-- V12, first row; program 2: the status after a successful comparison. -/
theorem test_cmp_equal : (nextOf (exec .cmp (comparing tagS1))).map (fun t => (t.status, t.results, t.tag)) =
    some (0x1D#8, [.okOut true], 0#128) := by
  decide +kernel

/-- V12: bytes 0 and 1 both XORed with `01`, which an XOR accumulator would accept. -/
theorem test_cmp_two_equal_differences :
    (nextOf (exec .cmp (comparing (0x07#8 :: 0x29#8 :: tagS1.drop 2)))).map (fun t => (t.status, t.results)) =
      some (0x0D#8, [.okOut false]) := by
  decide +kernel

/-- Program 4, row 5: `CLR` leaves the faulted state. -/
theorem test_clr : (nextOf (exec .clr { State.reset with ph := .keyed, err := true, errc := .sequence, S := S0 })).map
      (fun t => (t.status, t.S)) = some (0x00#8, 0#293) := by
  decide +kernel

/-- Program 4, rows 2 and 3: a command out of order, then any other. -/
theorem test_out_of_order :
    (nextOf (exec .pt (messageAt .keyed .enc S0 Operands.empty))).map (fun t => (t.status, t.S)) = some (0xC1#8, S0) ∧
      (nextOf (exec .ad { messageAt .keyed .enc S0 Operands.empty with err := true, errc := .sequence })).map
        (fun t => (t.status, t.S)) = some (0xC1#8, S0) := by
  decide +kernel

/-- V14: a reserved word from the host, through `step`. -/
theorem test_reserved_word_from_host :
    (nextOf (step { State.reset with pending := [{ issuer := .host, word := 0x87#8, ops := Operands.empty }] })).map
      State.status = some 0xA0#8 := by
  decide +kernel

/-- The word placed by `withFetchWord` is the next to run: `STEP8 1,1` on a zero operand from `S = 0` (V11). -/
theorem test_with_fetch_word : engineSees (step (State.reset.withFetchWord 8 0x2C)) =
    some ([.dout .bits8 0x00#32], 0x1fe00000000000000000000000000000000000000000000000000000000000000000000000#293) := by
  decide +kernel

/-! ### Witnesses: the hypotheses of each statement hold together somewhere -/

/-- The block of `s` with one command presented by the host. -/
def hostSends (s : State) (cw : Byte) (x : Operands) : State :=
  { s with pending := [{ issuer := .host, word := cw, ops := x }] }

/-- The block of `s` with one word given to the engine. -/
def controllerSends (s : State) (cw : Byte) (x : Operands) : State :=
  { s with pending := [{ issuer := .controller, word := cw, ops := x }] }

/-- A message whose associated data comes next. -/
def keyed : State := messageAt .keyed .enc S0 { Operands.empty with adata := ascending 0xA0 5 }

/-- A message whose text comes next. -/
def adDone : State := messageAt .adDone .enc S0 { Operands.empty with textIn := ascending 0x50 3 }

/-- A block in which a fault stands. -/
def faulted : State := { keyed with err := true, errc := .sequence }

theorem witness_DecodeAndEncodeAgree : decode 0x4C#8 = .ok (.step32 true true) := by rfl

theorem witness_DecodeFollowsTheOpcodeMap :
    decode 0x86#8 = .ok .cmp ∧ decode 0x87#8 = .error .unassignedOp := ⟨rfl, rfl⟩

/-- One word for each clause; `0x8F` is the last word of the fourth. -/
theorem witness_ReservedWordsAreRejected :
    ((0x7F#8).getLsbD 7 = false ∧ (0x7F#8).extractLsb' 0 2 ≠ 0#2) ∧
      ((0x60#8).getLsbD 7 = false ∧ (0x60#8).extractLsb' 0 2 = 0#2 ∧ (0x60#8).extractLsb' 5 2 = 3#2) ∧
      ((0x90#8).getLsbD 7 = true ∧ (0x90#8).extractLsb' 4 3 ≠ 0#3) ∧
      ((0x87#8).getLsbD 7 = true ∧ (0x87#8).extractLsb' 4 3 = 0#3 ∧ 7 ≤ ((0x87#8).extractLsb' 0 4).toNat) ∧
      ((0x8F#8).getLsbD 7 = true ∧ (0x8F#8).extractLsb' 4 3 = 0#3 ∧ 7 ≤ ((0x8F#8).extractLsb' 0 4).toNat) := by
  decide

/-- A host command, and an engine operation. -/
theorem witness_StepRunsTheDecodedOperation :
    (∃ r, (hostSends keyed 0x82#8 fetchOperands).pending = [r] ∧ decode r.word = .ok .ad ∧ r.issuer = .host) ∧
      (∃ r, (controllerSends keyed 0x2C#8 fetchOperands).pending = [r] ∧ decode r.word = .ok (.step8 true true) ∧
        Instr.isFormatE (.step8 true true) = true) :=
  ⟨⟨_, rfl, rfl, rfl⟩, ⟨_, rfl, rfl, rfl⟩⟩

theorem witness_StepHoldsItsStateWithoutACommand : keyed.pending = [] := rfl

/-- A reserved word, and an assigned format-E word. -/
theorem witness_IllegalHostWordsRaiseIllegalCommand :
    (∃ r, (hostSends keyed 0x87#8 fetchOperands).pending = [r] ∧ r.issuer = .host ∧ keyed.err = false ∧
        ∀ i : Instr, decode r.word = .ok i → i.isFormatE = true) ∧
      (∃ r, (hostSends keyed 0x4C#8 fetchOperands).pending = [r] ∧ r.issuer = .host ∧ keyed.err = false ∧
        ∀ i : Instr, decode r.word = .ok i → i.isFormatE = true) := by
  refine ⟨⟨_, rfl, rfl, rfl, fun i h => ?_⟩, ⟨_, rfl, rfl, rfl, fun i h => ?_⟩⟩
  · exact nomatch (show Except.error DecodeError.unassignedOp = Except.ok i from h)
  · cases (show Except.ok (Instr.step32 true true) = Except.ok i from h)
    rfl

theorem witness_EngineRefusesWordsWithoutMeaning :
    (∃ r, (controllerSends keyed 0x61#8 fetchOperands).pending = [r] ∧ r.issuer = .controller ∧
        decode r.word = .error .reservedBitsE) ∧
      (∃ r, (controllerSends keyed 0x81#8 fetchOperands).pending = [r] ∧ r.issuer = .controller ∧
        decode r.word = .ok .init ∧ Instr.isFormatE .init = false) :=
  ⟨⟨_, rfl, rfl, rfl⟩, ⟨_, rfl, rfl, rfl, rfl⟩⟩

theorem hostSends_hostOnly (s : State) (cw : Byte) (x : Operands) : (hostSends s cw x).HostOnly := by
  intro r hr
  obtain rfl := List.mem_singleton.mp hr
  rfl

/-- A faulted block, and a run of two commands, one reserved. -/
theorem witness_HostCommandsNeverStop :
    (hostSends faulted 0x85#8 fetchOperands).HostOnly ∧
      ∀ r ∈ [hostRequest .ad Operands.empty, { issuer := .host, word := 0x87#8, ops := Operands.empty }],
        r.issuer = .host :=
  ⟨hostSends_hostOnly _ _ _, by decide⟩

theorem witness_LanesAreIndependent : (0 : Nat) < 32 ∧ 31 < 32 := by decide

theorem witness_StepShiftsAndReturns : (0 : Nat) < 292 ∧ 291 < 292 := by decide

theorem witness_EncryptFormOperationsComplete : (engineAt S0 1#32).issuer = .controller := rfl

theorem witness_DecryptFormOperationsComplete : (engineAt 0#293 0xA2#32).issuer = .controller := rfl

theorem witness_HostIssuedEngineOperationsAreIllegal :
    Instr.isFormatE (.step1d true false) = true ∧ (keyed.issuer = .host ∧ keyed.err = false) ∧
      (faulted.issuer = .host ∧ faulted.err = true) := by decide

theorem witness_WordParallelFormEqualsIteratedStep :
    ((1 : Nat) ≤ 1 ∧ 1 ≤ 32 ∧ [true].length = 1) ∧
      ((1 : Nat) ≤ 32 ∧ 32 ≤ 32 ∧ (wordBits .lsbFirst 32 0xDEADBEEF#32).length = 32) := by decide

theorem witness_KeystreamOfOneOperationDependsOnSAlone :
    (zeros 32).length = (List.replicate 32 true).length ∧ (List.replicate 32 true).length ≤ 32 := by decide

theorem witness_PackedViewAgreesWithTheBitForm :
    ((0 : Nat) < 7 ∧ 60 < Config.segLen.getD 0 0) ∧ ((6 : Nat) < 7 ∧ 3 < Config.segLen.getD 6 0) := by decide

theorem witness_InitCompletes :
    let s := { keyed with ops := fetchOperands }
    (s.err = false ∧ s.ops.key.length = 16 ∧ s.ops.nonce.length = 16) ∧
      (keyed.err = false ∧ (keyed.ops.key.length ≠ 16 ∨ keyed.ops.nonce.length ≠ 16)) ∧ faulted.err = true := by decide

theorem witness_AdCompletes :
    (keyed.err = false ∧ keyed.ph = .keyed) ∧ (adDone.err = false ∧ adDone.ph ≠ .keyed) ∧ faulted.err = true := by decide

theorem witness_PtCompletes :
    (adDone.err = false ∧ adDone.ph = .adDone ∧ 23 < 8 * adDone.ops.textIn.length) ∧
      (keyed.err = false ∧ keyed.ph ≠ .adDone) ∧ faulted.err = true := by decide

theorem witness_CtCompletes :
    (adDone.err = false ∧ adDone.ph = .adDone ∧ 23 < 8 * adDone.ops.textIn.length) ∧
      (keyed.err = false ∧ keyed.ph ≠ .adDone) ∧ faulted.err = true := by decide

/-- In both directions. -/
theorem witness_FinCompletes :
    (∀ d : Direction, (messageAt .textDone d S0 Operands.empty).err = false ∧
      (messageAt .textDone d S0 Operands.empty).ph = .textDone ∧ (messageAt .textDone d S0 Operands.empty).dir = d) ∧
      (127 : Nat) < 128 ∧ (keyed.err = false ∧ keyed.ph ≠ .textDone) ∧ faulted.err = true := by
  exact ⟨fun _ => ⟨rfl, rfl, rfl⟩, by decide⟩

/-- A sixteen-byte tag, an empty one, a finished encryption. -/
theorem witness_CmpCompletes :
    ((comparing tagS1).err = false ∧ (comparing tagS1).ph = .tagged ∧ (comparing tagS1).dir = .dec ∧
        (comparing tagS1).ops.tagIn.length = 16) ∧
      ((comparing []).err = false ∧ (comparing []).ph = .tagged ∧ (comparing []).dir = .dec ∧
        (comparing []).ops.tagIn.length ≠ 16) ∧
      ((messageAt .tagged .enc 0#293 Operands.empty).err = false ∧
        (messageAt .tagged .enc 0#293 Operands.empty).dir = .enc) ∧ faulted.err = true := by decide

theorem witness_ClrCompletes : ∃ t, exec .clr faulted = .next t ∧ faulted.err = true ∧ t.err = false :=
  ⟨_, rfl, rfl, rfl⟩

/-- Out of order, and in order with well-sized operands. -/
theorem witness_AdmissionTable :
    (Instr.isFormatE .fin = false ∧ keyed.err = false ∧ (∃ t, exec .fin keyed = .next t) ∧
        ¬ admissible .fin keyed.ph keyed.dir) ∧
      (Instr.isFormatE .cmp = false ∧ (comparing tagS1).err = false ∧ (∃ t, exec .cmp (comparing tagS1) = .next t) ∧
        admissible .cmp (comparing tagS1).ph (comparing tagS1).dir ∧ wellSized .cmp (comparing tagS1).ops) := by
  refine ⟨⟨rfl, rfl, ⟨_, rfl⟩, ?_⟩, ⟨rfl, rfl, ⟨_, rfl⟩, ⟨rfl, rfl⟩, ?_⟩⟩
  · exact fun h => (nomatch h)
  · exact ⟨fun h => (nomatch h), fun _ => rfl⟩

theorem witness_FaultedBlockAcceptsOnlyClr :
    (∃ r, (hostSends faulted 0x81#8 fetchOperands).pending = [r] ∧ r.issuer = .host ∧ faulted.err = true ∧
        r.word ≠ 0x80#8) ∧
      (∃ r, (hostSends faulted 0x80#8 fetchOperands).pending = [r] ∧ r.issuer = .host ∧ faulted.err = true ∧
        r.word = 0x80#8) :=
  ⟨⟨_, rfl, rfl, rfl, by decide⟩, ⟨_, rfl, rfl, rfl, rfl⟩⟩

theorem witness_WrongTagIsNoFault :
    let s := comparing (0x07#8 :: tagS1.drop 1)
    s.err = false ∧ s.ph = .tagged ∧ s.dir = .dec ∧ s.ops.tagIn.length = 16 ∧ s.ops.tagIn ≠ tagBytes s.tag ∧
      fetchOperands.key.length = 16 ∧ fetchOperands.nonce.length = 16 := by decide +kernel

/-- `CLR`; a command in the faulted state; a word of no host command; a command out of order; a mis-sized one; an accepted
one. -/
theorem witness_ChecksDecideInOrder :
    (∃ r, (hostSends faulted 0x80#8 Operands.empty).pending = [r] ∧ r.issuer = .host ∧ r.word = 0x80#8) ∧
      (∃ r, (hostSends faulted 0x82#8 Operands.empty).pending = [r] ∧ r.issuer = .host ∧ r.word ≠ 0x80#8 ∧
        faulted.err = true) ∧
      (∃ r, (hostSends keyed 0x87#8 Operands.empty).pending = [r] ∧ r.issuer = .host ∧ r.word ≠ 0x80#8 ∧
        keyed.err = false ∧ decode r.word = .error .unassignedOp) ∧
      (∃ r, (hostSends keyed 0x83#8 Operands.empty).pending = [r] ∧ r.issuer = .host ∧ r.word ≠ 0x80#8 ∧
        keyed.err = false ∧ decode r.word = .ok .pt ∧ ¬ admissible .pt keyed.ph keyed.dir) ∧
      (∃ r, (hostSends keyed 0x81#8 Operands.empty).pending = [r] ∧ r.issuer = .host ∧ r.word ≠ 0x80#8 ∧
        keyed.err = false ∧ decode r.word = .ok .init ∧ admissible .init keyed.ph keyed.dir ∧ ¬ wellSized .init r.ops) ∧
      (∃ r, (hostSends keyed 0x82#8 Operands.empty).pending = [r] ∧ r.issuer = .host ∧ r.word ≠ 0x80#8 ∧
        keyed.err = false ∧ decode r.word = .ok .ad ∧ admissible .ad keyed.ph keyed.dir ∧ wellSized .ad r.ops) := by
  refine ⟨⟨_, rfl, rfl, rfl⟩, ⟨_, rfl, rfl, by decide, rfl⟩, ⟨_, rfl, rfl, by decide, rfl, rfl⟩,
    ⟨_, rfl, rfl, by decide, rfl, rfl, fun h => (nomatch h)⟩, ⟨_, rfl, rfl, by decide, rfl, rfl, trivial, fun h => ?_⟩,
    ⟨_, rfl, rfl, by decide, rfl, rfl, rfl, fun h => (nomatch h), fun h => (nomatch h)⟩⟩
  exact absurd (h.1 rfl).1 (by decide)

theorem keyed_registersInv : keyed.RegistersInv :=
  ⟨⟨fun h => (nomatch h), fun h => absurd rfl h⟩, fun h => (nomatch h), fun _ => rfl,
    ⟨fun h => (nomatch h), fun h => (nomatch h)⟩⟩

/-- In the middle of a message, with a command to come. -/
theorem witness_EveryStepKeepsTheRegisterInvariant :
    let s := hostSends keyed 0x82#8 { Operands.empty with adata := ascending 0xA0 5 }
    s.RegistersInv ∧ ∃ t, step s = .next t :=
  ⟨⟨keyed_registersInv.1, keyed_registersInv.2, keyed_registersInv.3, keyed_registersInv.4⟩, ⟨_, rfl⟩⟩

theorem witness_EveryHostStepKeepsTheInvariant :
    let s := hostSends keyed 0x82#8 { Operands.empty with adata := ascending 0xA0 5 }
    s.Inv ∧ ∃ t, step s = .next t :=
  ⟨⟨witness_EveryStepKeepsTheRegisterInvariant.1, hostSends_hostOnly _ _ _,
    fun h => (nomatch h)⟩, ⟨_, rfl⟩⟩

/-- A move along an edge. -/
theorem witness_PhaseMovesOnlyAlongItsEdges :
    ∃ t, step (hostSends keyed 0x82#8 Operands.empty) = .next t ∧ t.ph = .adDone := ⟨_, rfl, rfl⟩

theorem witness_NoOperandIsRetained :
    (∃ t, step (hostSends keyed 0x81#8 fetchOperands) = .next t) ∧ (hostSends keyed 0x81#8 fetchOperands).pending ≠ [] :=
  ⟨⟨_, rfl⟩, fun h => (nomatch h)⟩

/-- The tag of an earlier message has been returned, and a decryption is finalized. -/
theorem witness_NoTagLeavesWhileDecrypting :
    let s := hostSends { messageAt .textDone .dec S0 Operands.empty with results := [.tagOut tagS1] } 0x85#8 Operands.empty
    s.dir = .dec ∧ ∃ t, step s = .next t ∧ .tagOut tagS1 ∈ t.results :=
  ⟨rfl, _, rfl, List.mem_cons_self⟩

/-- Four zero words of key and nonce. -/
def zeroBytes : List Byte := List.replicate 16 0#8

theorem witness_EncryptRunReturnsCiphertextAndTag :
    let s := { keyed with pending := encryptCommands zeroBytes zeroBytes [1#8] [2#8] ++ [] }
    s.err = false ∧ zeroBytes.length = 16 ∧ s.pending = encryptCommands zeroBytes zeroBytes [1#8] [2#8] ++ [] :=
  ⟨rfl, rfl, rfl⟩

theorem witness_DecryptRunReturnsPlaintextAndFlag :
    let s := { keyed with pending := decryptCommands zeroBytes zeroBytes [1#8] [2#8] tagS1 ++ [] }
    s.err = false ∧ zeroBytes.length = 16 ∧ tagS1.length = 16 ∧
      s.pending = decryptCommands zeroBytes zeroBytes [1#8] [2#8] tagS1 ++ [] :=
  ⟨rfl, rfl, rfl, rfl⟩

/-- Of two different tags at least one is not the tag of the message. -/
theorem witness_OtherTagsAreRejected : ∃ T : List Byte, T.length = 16 ∧
    T ≠ (encryptValue .lsbFirst zeroBytes zeroBytes [] []).2 := by
  by_cases h : zeroBytes = (encryptValue .lsbFirst zeroBytes zeroBytes [] []).2
  · exact ⟨tagS1, rfl, fun h' => absurd (h.trans h'.symm) (by decide)⟩
  · exact ⟨zeroBytes, rfl, h⟩

theorem witness_CiphertextBitFlipFlipsThePlaintextBit : (0 : Nat) < 8 ∧ 7 < 8 := by decide

theorem witness_FixedSchedulesGiveTheSameResults :
    (fetchOperands.key.length = 16 ∧ fetchOperands.nonce.length = 16 ∧
        ∃ t, exec .init { keyed with ops := fetchOperands } = .next t) ∧
      (∃ t, exec .fin (messageAt .textDone .dec S0 Operands.empty) = .next t) :=
  ⟨⟨rfl, rfl, _, rfl⟩, _, rfl⟩

theorem witness_DataSchedulesGiveTheSameResults :
    (keyed.err = false ∧ keyed.ph = .keyed ∧ ∃ t, exec .ad keyed = .next t) ∧
      (adDone.err = false ∧ adDone.ph = .adDone ∧ (∃ t, exec .pt adDone = .next t) ∧ ∃ t, exec .ct adDone = .next t) :=
  ⟨⟨rfl, rfl, _, rfl⟩, rfl, rfl, ⟨_, rfl⟩, _, rfl⟩

theorem witness_MessageCostsTheTabulatedOperations : zeroBytes.length = 16 := rfl

theorem witness_ParametersAgree :
    (6 : Nat) < 7 ∧ zeroBytes.length = Config.keyBytes ∧ zeroBytes.length = Config.nonceBytes := by decide

theorem witness_InitForgetsTheOldMessage : keyed.err = false ∧ wellSized .init fetchOperands :=
  ⟨rfl, fun _ => ⟨rfl, rfl⟩, fun h => (nomatch h)⟩

theorem witness_ResetValuesOfSAndTagAreUnobservable :
    let s := hostSends State.reset 0x81#8 fetchOperands
    s.ph = .idle ∧ s.HostOnly := ⟨rfl, hostSends_hostOnly _ _ _⟩

/-- Two messages that differ in the secret alone. -/
theorem witness_ControlDependsOnPublicDataAlone :
    let t := { adDone with S := 1#293, ops := { adDone.ops with textIn := [7#8, 8#8, 9#8] } }
    adDone.PubliclyEqual t ∧ (∃ a, exec .ct adDone = .next a) ∧ ∃ b, exec .ct t = .next b :=
  ⟨⟨rfl, rfl, rfl, rfl, rfl, rfl, rfl, rfl, rfl, rfl, rfl⟩, ⟨_, rfl⟩, _, rfl⟩

theorem witness_InstancesAreIndependent : (0 : Nat) < 3 ∧ 2 < 3 := by decide

/-- R155, R160: of two instances in mid-message one is reset, and the other keeps its message. -/
theorem test_reset_of_one_instance :
    (runInstances [(1, .reset)] [keyed, adDone]).map State.status = [0x01#8, 0x00#8] := by decide +kernel

/-- R172: a run that stopped on a word out of order has ended, faulted. -/
theorem test_run_has_ended : ∃ t, runSteps 1 (startRun [hostRequest .fin Operands.empty]) = .next t ∧ t.endedFaulted :=
  ⟨_, rfl, rfl, rfl⟩

end Sys2Proof.Tests
end

section
/-!
PROOFS. The parameters of R5 against the sequences the model absorbs (R12, R102, R106, R107).
-/

namespace Sys2Proof.Machine

/-- Each segment begins where the one before it ends (R5, R12). -/
theorem segBase_succ : ∀ k, k < 7 →
    Config.segBase.getD (k + 1) 0 = Config.segBase.getD k 0 + Config.segLen.getD k 0 := by
  decide

/-- The key bits, the nonce bits, the complemented key bit and the 1535 cyclic key bits of R102, counted. -/
theorem qInit_length (o : BitOrder) (K N : List Byte) :
    (qInit o K N).length = 8 * K.length + 8 * N.length + 1536 := by
  simp [qInit, Nat.add_assoc]

theorem qInit_length_eq_initSteps (o : BitOrder) {K N : List Byte} (hK : K.length = Config.keyBytes)
    (hN : N.length = Config.nonceBytes) : (qInit o K N).length = Config.initSteps := by
  rw [qInit_length, hK, hN]
  rfl

/-- The `ca = 1` half of the trailer is one absorption: its leading 1 and its zeros share one control pair (R107). -/
theorem trailer_eq_two_absorptions (cb : Bool) (S : Lfsr) :
    trailer cb S = absorb (zeros 128) false cb (absorb (true :: zeros 127) true cb S) := by
  have hfirst : absorb (true :: zeros 127) true cb S = absorb (zeros 127) true cb (absorb [true] true cb S) :=
    absorb_append true cb [true] (zeros 127) S
  rw [trailer, hfirst]

/-- Settles O55: the segment table and the step counts of `FIN` by evaluation, the counts of `INIT` and of the trailer by the
lengths of the sequences they absorb. -/
theorem parametersAgree : Obligations.ParametersAgree := by
  refine ⟨segBase_succ, ?base, ?init, ?trailer, ?finTag, ?tagSteps, ?finSteps⟩
  case base => rfl
  case init => exact fun o _ _ hK hN => qInit_length_eq_initSteps o hK hN
  case trailer => exact trailer_eq_two_absorptions
  case finTag => exact fun _ _ => rfl
  case tagSteps => rfl
  case finSteps => rfl

end Sys2Proof.Machine
end

section
/-!
PROOFS. What every step keeps (R13, R15 to R23): one inversion of a step by its operation's effect, and the invariants read
off it.
-/

namespace Sys2Proof.Machine

/-! ### One step as one effect -/

/-- A host word that selects no command changes nothing or raises the exception, like any operation's effect (R141, R144). -/
theorem illegalCommand_effect (i : Instr) (s : State) : Effect i s s.illegalCommand := by
  unfold State.illegalCommand
  cases he : s.err with
  | false => exact .raised _ he (by simp)
  | true => exact .unchanged

/-- A step holds the state, or presents the head command, has an operation's effect and releases the operands (R42, R148).
A word that selects no operation has an effect every operation may have, `CLR` among them. -/
theorem step_effect {s t : State} (h : step s = .next t) :
    (s.pending = [] ∧ t = s) ∨
    (∃ r rest i u, s.pending = r :: rest ∧ Effect i (s.present r rest) u ∧ t = u.release) := by
  rcases step_cases h with hold | ⟨r, rest, i, u, hp, _, hu, _, rfl⟩ | ⟨r, rest, _, hp, _, _, rfl⟩
  · exact .inl hold
  · exact .inr ⟨r, rest, i, u, hp, exec_effect hu, rfl⟩
  · exact .inr ⟨r, rest, .clr, _, hp, illegalCommand_effect .clr _, rfl⟩

theorem Effect.pending_eq {i : Instr} {s u : State} (h : Effect i s u) : u.pending = s.pending := by
  cases h <;> rfl

/-- A step takes the head command and leaves the others in their order (R42). -/
theorem step_pending {s t : State} (h : step s = .next t) : t.pending = s.pending.tail := by
  rcases step_effect h with ⟨hp, rfl⟩ | ⟨r, rest, i, u, hp, hu, rfl⟩
  · rw [hp, List.tail_nil]
  · rw [release_pending, hu.pending_eq, hp, present_pending, List.tail_cons]

/-! ### The register invariant -/

@[simp] theorem registersInv_present (s : State) (r : Request) (rest : List Request) :
    (s.present r rest).RegistersInv ↔ s.RegistersInv :=
  ⟨fun ⟨hf, ho, ht, hd⟩ => ⟨hf, ho, ht, hd⟩, fun ⟨hf, ho, ht, hd⟩ => ⟨hf, ho, ht, hd⟩⟩

@[simp] theorem registersInv_release (s : State) : s.release.RegistersInv ↔ s.RegistersInv :=
  ⟨fun ⟨hf, ho, ht, hd⟩ => ⟨hf, ho, ht, hd⟩, fun ⟨hf, ho, ht, hd⟩ => ⟨hf, ho, ht, hd⟩⟩

/-- Outside `VERIFIED` the verification flag is down (R18). -/
theorem State.OkOnlyVerified.ok_eq_false {s : State} (h : s.OkOnlyVerified) (hp : s.ph ≠ .verified) : s.ok = false :=
  Bool.eq_false_iff.mpr fun hok => hp (h hok)

/-- Before the text the direction is `ENC` (R16). -/
theorem State.DirectionByPhase.dir_ne_dec {s : State} (h : s.DirectionByPhase)
    (hp : s.ph = .idle ∨ s.ph = .keyed ∨ s.ph = .adDone) : s.dir ≠ .dec := by
  intro hd
  rcases hp with hp | hp | hp <;> simpa [hp] using h.1 hd

/-- The moves of `PH` keep the invariant because each command that makes one sets the registers its new phase speaks of,
and the phase it starts from fixes the others. -/
theorem Effect.registersInv {i : Instr} {s u : State} (h : Effect i s u) (hs : s.RegistersInv) : u.RegistersInv := by
  obtain ⟨hfault, hok, htag, hdir⟩ := hs
  cases h with
  | unchanged => exact ⟨hfault, hok, htag, hdir⟩
  | raised c _ hc => exact ⟨iff_of_true rfl hc, hok, htag, hdir⟩
  | engine f w ca cb _ _ => exact ⟨hfault, hok, htag, hdir⟩
  | cleared _ =>
    exact ⟨by simp [State.FaultRecorded], by simp [State.OkOnlyVerified], by simp [State.TagOnlyTagged],
      by simp [State.DirectionByPhase]⟩
  | init _ _ =>
    exact ⟨hfault, by simp [State.OkOnlyVerified], by simp [State.TagOnlyTagged], by simp [State.DirectionByPhase]⟩
  | ad _ _ hp =>
    have hok0 : s.ok = false := hok.ok_eq_false (by simp [hp])
    have htag0 : s.tag = 0#128 := htag (by simp [hp])
    have hdir0 : s.dir ≠ .dec := hdir.dir_ne_dec (by simp [hp])
    exact ⟨hfault, by simp [State.OkOnlyVerified, hok0], fun _ => htag0, by simp [State.DirectionByPhase, hdir0]⟩
  | text d r _ hp _ =>
    have hok0 : s.ok = false := hok.ok_eq_false (by simp [hp])
    have htag0 : s.tag = 0#128 := htag (by simp [hp])
    exact ⟨hfault, by simp [State.OkOnlyVerified, hok0], fun _ => htag0, by simp [State.DirectionByPhase]⟩
  | fin _ _ hp =>
    have hok0 : s.ok = false := hok.ok_eq_false (by simp [hp])
    exact ⟨hfault, by simp [State.OkOnlyVerified, hok0], by simp [State.TagOnlyTagged],
      by simp [State.DirectionByPhase]⟩
  | cmp _ _ _ hd =>
    exact ⟨hfault, fun _ => rfl, fun _ => rfl, by simp [State.DirectionByPhase, hd]⟩

/-- Settles O39: the invariant does not look at operands, issuer or commands to come, and every effect keeps it. -/
theorem everyStepKeepsTheRegisterInvariant : Obligations.EveryStepKeepsTheRegisterInvariant := by
  intro s t hs h
  rcases step_effect h with ⟨_, rfl⟩ | ⟨r, rest, i, u, _, hu, rfl⟩
  · exact hs
  · exact (registersInv_release u).mpr (hu.registersInv ((registersInv_present s r rest).mpr hs))

/-! ### The invariant of the block driven by the host -/

theorem State.HostOnly.issuer_eq {s : State} {r : Request} {rest : List Request} (hs : s.HostOnly)
    (hp : s.pending = r :: rest) : r.issuer = .host :=
  hs r (by simp [hp])

theorem step_keeps_hostOnly {s t : State} (hs : s.HostOnly) (h : step s = .next t) : t.HostOnly := by
  intro r hr
  rw [step_pending h] at hr
  exact hs r (List.mem_of_mem_tail hr)

/-- Only the controller's engine operations write `S` outside a message, and the host presents none of them (R60). -/
theorem Effect.shiftRegisterClear {i : Instr} {s u : State} (h : Effect i s u) (hhost : s.issuer = .host)
    (hs : s.ShiftRegisterClear) : u.ShiftRegisterClear := by
  cases h with
  | unchanged => exact hs
  | raised c _ _ => exact hs
  | engine f w ca cb _ hctl => simp [hhost] at hctl
  | cleared _ => exact fun _ => rfl
  | init _ _ => simp [State.ShiftRegisterClear]
  | ad _ _ _ => simp [State.ShiftRegisterClear]
  | text d r _ _ _ => simp [State.ShiftRegisterClear]
  | fin _ _ _ => exact fun _ => rfl
  | cmp _ _ hp _ => exact fun _ => hs (.inr (.inl hp))

theorem step_keeps_shiftRegisterClear {s t : State} (hhost : s.HostOnly) (hs : s.ShiftRegisterClear)
    (h : step s = .next t) : t.ShiftRegisterClear := by
  rcases step_effect h with ⟨_, rfl⟩ | ⟨r, rest, i, u, hp, hu, rfl⟩
  · exact hs
  · exact hu.shiftRegisterClear (hhost.issuer_eq hp) hs

/-- Settles O40: the register invariant by O39, the commands to come by `step_pending`, `S` by the effects of host
commands. -/
theorem everyHostStepKeepsTheInvariant : Obligations.EveryHostStepKeepsTheInvariant := by
  intro s t ⟨hregs, hhost, hclear⟩ h
  exact ⟨everyStepKeepsTheRegisterInvariant s t hregs h, step_keeps_hostOnly hhost h,
    step_keeps_shiftRegisterClear hhost hclear h⟩

/-- Settles O41: in the reset state every register is 0, the phase is `IDLE` and nothing is to come (R23). -/
theorem resetMeetsTheInvariant : Obligations.ResetMeetsTheInvariant where
  registers :=
    { faultRecorded := by simp [State.FaultRecorded, State.reset]
      okOnlyVerified := by simp [State.OkOnlyVerified, State.reset]
      tagOnlyTagged := fun _ => rfl
      directionByPhase := by simp [State.DirectionByPhase, State.reset] }
  hostOnly := by simp [State.HostOnly, State.reset]
  shiftRegisterClear := fun _ => rfl

/-! ### Phase moves, operands, tags -/

theorem Effect.ph_edge {i : Instr} {s u : State} (h : Effect i s u) : u.ph = s.ph ∨ phaseEdge s.ph u.ph := by
  cases h with
  | unchanged => exact .inl rfl
  | raised c _ _ => exact .inl rfl
  | engine f w ca cb _ _ => exact .inl rfl
  | cleared _ => exact .inr (.inl rfl)
  | init _ _ => exact .inr (.inr (.inl rfl))
  | ad _ _ hp => simp [phaseEdge, hp]
  | text d r _ hp _ => simp [phaseEdge, hp]
  | fin _ _ hp => simp [phaseEdge, hp]
  | cmp _ _ hp _ => simp [phaseEdge, hp]

/-- Settles O42: presenting and releasing a command leave `PH`, and every effect moves it along an edge. -/
theorem phaseMovesOnlyAlongItsEdges : Obligations.PhaseMovesOnlyAlongItsEdges := by
  intro s t h
  rcases step_effect h with ⟨_, rfl⟩ | ⟨r, rest, i, u, _, hu, rfl⟩
  · exact .inl rfl
  · exact hu.ph_edge

/-- Settles O43: a step with a command to come ends by releasing the operands. -/
theorem noOperandIsRetained : Obligations.NoOperandIsRetained := by
  intro s t h hne
  rcases step_effect h with ⟨hp, _⟩ | ⟨r, rest, i, u, _, _, rfl⟩
  · exact absurd hp hne
  · exact release_ops u

/-- What an effect adds to the results is no tag while `DIR = DEC`: only `FIN` returns one, and then it returns nothing
(R106). -/
theorem Effect.tagOut_mem_of_dec {i : Instr} {s u : State} (h : Effect i s u) (hd : s.dir = .dec) {bytes : List Byte}
    (hmem : .tagOut bytes ∈ u.results) : .tagOut bytes ∈ s.results := by
  cases h with
  | unchanged => exact hmem
  | raised c _ _ => exact hmem
  | engine f w ca cb _ _ => simpa using hmem
  | cleared _ => exact hmem
  | init _ _ => exact hmem
  | ad _ _ _ => exact hmem
  | text d r _ _ _ => simpa using hmem
  | fin _ _ _ => simpa [hd, finResult] using hmem
  | cmp _ _ _ _ => simpa using hmem

/-- Settles O44: presenting and releasing a command leave the results and `DIR`, and no effect adds a tag. -/
theorem noTagLeavesWhileDecrypting : Obligations.NoTagLeavesWhileDecrypting := by
  intro s t bytes h hd hmem
  rcases step_effect h with ⟨_, rfl⟩ | ⟨r, rest, i, u, _, hu, rfl⟩
  · exact hmem
  · exact hu.tagOut_mem_of_dec hd hmem

/-! ### The status view -/

/-- Bit `j` of the status byte, by the field it falls in (R22). -/
theorem status_getLsbD (s : State) (j : Nat) : s.status.getLsbD j =
    if j < 3 then (phaseCode s.ph).getLsbD j
    else if j < 4 then (directionCode s.dir).getLsbD (j - 3)
    else if j < 5 then (BitVec.ofBool s.ok).getLsbD (j - 4)
    else if j < 7 then (causeCode s.errc).getLsbD (j - 5)
    else (BitVec.ofBool s.err).getLsbD (j - 7) := by
  have happend : s.status.getLsbD j = (BitVec.ofBool s.err ++ causeCode s.errc ++ BitVec.ofBool s.ok ++
      directionCode s.dir ++ phaseCode s.ph).getLsbD j := rfl
  simp only [happend, BitVec.getLsbD_append]
  grind

/-- Settles O59: each field of the concatenation is read back at its place (R22); the codes are those of the tables. -/
theorem statusViewHasItsFields : Obligations.StatusViewHasItsFields := by
  refine ⟨fun s => ⟨?err, ?errc, ?ok, ?dir, ?ph⟩, ⟨rfl, rfl, rfl, rfl, rfl, rfl⟩, ⟨rfl, rfl⟩, ⟨rfl, rfl, rfl, rfl⟩⟩
  case err => rw [status_getLsbD]; simp
  case ok => rw [status_getLsbD]; simp
  case errc =>
    refine BitVec.eq_of_getLsbD_eq fun j hj => ?_
    have h7 : 5 + j < 7 := by omega
    rw [BitVec.getLsbD_extractLsb', status_getLsbD]
    grind
  case dir =>
    refine BitVec.eq_of_getLsbD_eq fun j hj => ?_
    rw [BitVec.getLsbD_extractLsb', status_getLsbD]
    grind
  case ph =>
    refine BitVec.eq_of_getLsbD_eq fun j hj => ?_
    rw [BitVec.getLsbD_extractLsb', status_getLsbD]
    grind
end Sys2Proof.Machine
end

section
/-!
PROOFS. The packed view of R12 against the bit form: segments and register determine each other, and each sub-step of the
single-bit step is the same on both.
-/

namespace Sys2Proof.Machine

/-! ### Packing and unpacking -/

/-- Adjacent segments join to the register they were cut from (R12). -/
theorem ofSegments_toSegments (S : Lfsr) : ofSegments (toSegments S) = S := by
  have hjoin : ofSegments (toSegments S) = S.extractLsb' 289 4 ++ S.extractLsb' 230 59 ++ S.extractLsb' 193 37 ++
      S.extractLsb' 154 39 ++ S.extractLsb' 107 47 ++ S.extractLsb' 61 46 ++ S.extractLsb' 0 61 := rfl
  rw [hjoin]
  iterate 6 rw [BitVec.extractLsb'_append_extractLsb'_eq_extractLsb' (by rfl)]
  exact BitVec.extractLsb'_eq_self

/-- A piece of the joined segments, with the register's width written as the sum of theirs. -/
theorem ofSegments_extractLsb' (g : Segments) (a n : Nat) : (ofSegments g).extractLsb' a n =
    (g.lfsr6 ++ g.lfsr5 ++ g.lfsr4 ++ g.lfsr3 ++ g.lfsr2 ++ g.lfsr1 ++ g.lfsr0).extractLsb' a n := rfl

/-- Cutting at the segment bases takes the joined segments apart again (R12). -/
theorem toSegments_ofSegments (g : Segments) : toSegments (ofSegments g) = g := by
  simp only [toSegments, ofSegments_extractLsb', BitVec.extractLsb'_append_eq_of_le,
    BitVec.extractLsb'_append_eq_right, BitVec.extractLsb'_eq_self, Nat.reduceLeDiff, Nat.reduceSub]

/-- A tap read in a segment is a tap read in the register (R8, R12). -/
theorem getLsbD_segment (S : Lfsr) (a : Nat) {n j : Nat} (hj : j < n) :
    (S.extractLsb' a n).getLsbD j = rbit S (a + j) := by
  simp [rbit_eq, hj]

/-- Bit `j` of segment `k` is `s[SEG_BASE[k] + j]` (R12). -/
theorem segmentBit_toSegments (S : Lfsr) (k j : Nat) (hk : k < 7) (hj : j < Config.segLen.getD k 0) :
    segmentBit (toSegments S) k j = rbit S (Config.segBase.getD k 0 + j) := by
  match k with
  | 0 | 1 | 2 | 3 | 4 | 5 | 6 => exact getLsbD_segment S _ hj

/-! ### The tap XORs -/

/-- A write outside a segment leaves it. -/
theorem segment_writeBit_of_outside (S : Lfsr) {i : Nat} (v : Bool) {a n : Nat} (hi : i < 293)
    (hout : i < a ∨ a + n ≤ i) : (writeBit S i v).extractLsb' a n = S.extractLsb' a n := by
  refine BitVec.eq_of_getLsbD_eq fun j hj => ?_
  rw [getLsbD_segment _ _ hj, getLsbD_segment _ _ hj, rbit_writeBit S i _ v hi, if_neg (by omega)]

/-- A write to the first bit of a segment flips that bit when the value written differs from it. -/
theorem segment_writeBit_base (S : Lfsr) (v : Bool) {a n : Nat} (ha : a < 293) :
    (writeBit S a v).extractLsb' a n = flipBit (S.extractLsb' a n) 0 (rbit S a ^^ v) := by
  refine BitVec.eq_of_getLsbD_eq fun j hj => ?_
  rw [getLsbD_segment _ _ hj, rbit_writeBit S a _ _ ha, flipBit, BitVec.getLsbD_xor, getLsbD_segment _ _ hj]
  by_cases h : j = 0
  · subst h
    simp [hj]
  · simp [h]

/-- Each tap XOR changes the first bit of one segment and reads bits no earlier one has written (R80). -/
theorem tapXorsPacked_toSegments (S : Lfsr) : tapXorsPacked (toSegments S) = toSegments (tapXors S) := by
  simp only [tapXorsPacked, toSegments, tapXors, getLsbD_segment, Nat.reduceLT, Nat.reduceAdd]
  simp [segment_writeBit_of_outside, segment_writeBit_base, rbit_writeBit]

/-! ### The shift -/

/-- Bit `j` of a shifted segment is the next one of the segment, or the bit shifted in (R83). -/
theorem getLsbD_shiftSegment {n : Nat} (x : BitVec n) (v : Bool) {j : Nat} (hj : j < n) :
    (shiftSegment x v).getLsbD j = if j + 1 = n then v else x.getLsbD (j + 1) := by
  rw [shiftSegment, BitVec.getLsbD_extractLsb', BitVec.getLsbD_cons, Nat.add_comm 1 j]
  simp [hj]

/-- A segment shifts with the register when the bit shifted in is the register's next one above it (R83). -/
theorem shiftSegment_segment (S : Lfsr) (v : Bool) {a n : Nat} (h : a + n ≤ 293) :
    shiftSegment (S.extractLsb' a n) (if a + n = 293 then v else rbit S (a + n)) = (shiftIn S v).extractLsb' a n := by
  refine BitVec.eq_of_getLsbD_eq fun j hj => ?_
  rw [getLsbD_segment _ _ hj, rbit_shiftIn S v _ (by omega), getLsbD_shiftSegment _ _ hj]
  by_cases hlast : j + 1 = n
  · subst hlast
    have hnewest : a + (j + 1) = 293 ↔ a + j = 292 := by omega
    simp [hnewest, Nat.add_assoc]
  · have hj' : j + 1 < n := by omega
    have hne : a + j ≠ 292 := by omega
    rw [if_neg hlast, if_neg hne, getLsbD_segment _ _ hj', Nat.add_assoc]

/-- The bit each segment takes in is bit 0 of the next one, and the last takes in the new bit (R83). -/
theorem shiftPacked_toSegments (S : Lfsr) (v : Bool) : shiftPacked (toSegments S) v = toSegments (shiftIn S v) := by
  simp [shiftPacked, toSegments, ← shiftSegment_segment, rbit_eq]

/-! ### The step -/

/-- The eight taps of R73, by segment and offset (R75). -/
theorem ksgPacked_toSegments (S : Lfsr) : ksgPacked (toSegments S) = ksg128 S := by
  simp [ksgPacked, ksg128, toSegments, rbit_eq]

/-- The six taps of R74, by segment and offset (R75). -/
theorem fbkPacked_toSegments (S : Lfsr) (ca cb ks : Bool) :
    fbkPacked (toSegments S) ca cb ks = fbk128 S ca cb ks := by
  simp [fbkPacked, fbk128, toSegments, rbit_eq]

/-- The step on the segments is the step on the register (R12, R85, R86). -/
theorem stepPacked_toSegments (f : Form) (b ca cb : Bool) (S : Lfsr) :
    stepPacked f b ca cb (toSegments S) = ((stepForm f b ca cb S).1, toSegments (stepForm f b ca cb S).2) := by
  cases f with
  | encrypt =>
    simp [stepPacked, stepForm, stepBit, tapXorsPacked_toSegments, ksgPacked_toSegments, fbkPacked_toSegments,
      shiftPacked_toSegments]
  | decrypt =>
    simp [stepPacked, stepForm, stepBitD, tapXorsPacked_toSegments, ksgPacked_toSegments, fbkPacked_toSegments,
      shiftPacked_toSegments]

/-- Settles O27: packing and unpacking undo each other, and the step commutes with packing because its taps, its tap XORs
and its shift each do. -/
theorem packedViewAgreesWithTheBitForm : Obligations.PackedViewAgreesWithTheBitForm :=
  ⟨ofSegments_toSegments, toSegments_ofSegments, segmentBit_toSegments, stepPacked_toSegments⟩

end Sys2Proof.Machine
end

section
/-!
PROOFS. In `IDLE` the values of `S` and `TAG` cannot be observed by host commands (R13, R22, R23): a simulation between two
runs whose states differ in them alone until a command makes them equal.
-/

namespace Sys2Proof.Machine

/-! ### States that differ in what is not shown -/

/-- The state with other contents in `S` and `TAG`. -/
def State.withHidden (s : State) (S : Lfsr) (tag : TagWord) : State := { s with S := S, tag := tag }

/-- The states are equal, or `PH` is `IDLE` and they differ in `S` and `TAG` at most. -/
def State.AlikeInIdle (a b : State) : Prop :=
  b = a ∨ (a.ph = .idle ∧ ∃ S tag, b = a.withHidden S tag)

/-- Both outcomes are next states, alike in `IDLE`. -/
def NextAlikeInIdle (x y : Host.Outcome State Fault Refusal) : Prop :=
  ∃ a b, x = .next a ∧ y = .next b ∧ a.AlikeInIdle b

theorem State.AlikeInIdle.refl (a : State) : a.AlikeInIdle a := .inl rfl

theorem State.AlikeInIdle.pending_eq {a b : State} (h : a.AlikeInIdle b) : b.pending = a.pending := by
  rcases h with rfl | ⟨_, S, tag, rfl⟩ <;> rfl

theorem State.AlikeInIdle.present {a b : State} (h : a.AlikeInIdle b) (r : Request) (rest : List Request) :
    (a.present r rest).AlikeInIdle (b.present r rest) := by
  rcases h with rfl | ⟨hph, S, tag, rfl⟩
  · exact .refl _
  · exact .inr ⟨hph, S, tag, rfl⟩

theorem State.AlikeInIdle.release {a b : State} (h : a.AlikeInIdle b) : a.release.AlikeInIdle b.release := by
  rcases h with rfl | ⟨hph, S, tag, rfl⟩
  · exact .refl _
  · exact .inr ⟨hph, S, tag, rfl⟩

/-- The exception is taken by `ERR` alone (R144, R148). -/
theorem State.AlikeInIdle.illegalCommand {a b : State} (h : a.AlikeInIdle b) :
    a.illegalCommand.AlikeInIdle b.illegalCommand := by
  rcases h with rfl | ⟨hph, S, tag, rfl⟩
  · exact .refl _
  · have herr : (a.withHidden S tag).err = a.err := rfl
    unfold State.illegalCommand
    rw [herr]
    cases a.err with
    | false => exact .inr ⟨hph, S, tag, rfl⟩
    | true => exact .inr ⟨hph, S, tag, rfl⟩

theorem NextAlikeInIdle.release {x y : Host.Outcome State Fault Refusal} (h : NextAlikeInIdle x y) :
    NextAlikeInIdle (releaseOutcome x) (releaseOutcome y) := by
  obtain ⟨a, b, rfl, rfl, hab⟩ := h
  exact ⟨a.release, b.release, rfl, rfl, hab.release⟩

/-! ### The checks on a command, one equation per outcome -/

theorem hostCommand_notAdmitted {lengthsOk : Bool} {done s : State} (he : s.err = false) :
    hostCommand false lengthsOk done s = .next (s.raise .sequence) := by
  simp [hostCommand, he]

theorem hostCommand_badLength {done s : State} (he : s.err = false) :
    hostCommand true false done s = .next (s.raise .length) := by
  simp [hostCommand, he]

/-- An engine operation the host presents is illegal (R60, R141). -/
theorem engineOperation_of_host (f : Form) (w : Width) (ca cb : Bool) {s : State} (hhost : s.issuer = .host) :
    engineOperation f w ca cb s = .next s.illegalCommand := by
  simp [engineOperation, hhost]

/-! ### One operation -/

/-- Every operation answers a next state (R95). -/
theorem exec_next (i : Instr) (s : State) : ∃ t, exec i s = .next t := by
  cases i with
  | step1 ca cb => exact engineOperation_next .encrypt .bits1 ca cb s
  | step1d ca cb => exact engineOperation_next .decrypt .bits1 ca cb s
  | step8 ca cb => exact engineOperation_next .encrypt .bits8 ca cb s
  | step8d ca cb => exact engineOperation_next .decrypt .bits8 ca cb s
  | step32 ca cb => exact engineOperation_next .encrypt .bits32 ca cb s
  | step32d ca cb => exact engineOperation_next .decrypt .bits32 ca cb s
  | clr => exact ⟨_, rfl⟩
  | init => exact hostCommand_next _ _ _ s
  | ad => exact hostCommand_next _ _ _ s
  | pt => exact hostCommand_next _ _ _ s
  | ct => exact hostCommand_next _ _ _ s
  | fin => exact hostCommand_next _ _ _ s
  | cmp => exact hostCommand_next _ _ _ s

section
variable {s : State} (hph : s.ph = .idle) (S : Lfsr) (tag : TagWord)
include hph

/-- The checks of R148 do not look at `S` or `TAG`, so the outcomes agree where the command, once admitted, does. -/
theorem hostCommand_alike {admitted lengthsOk : Bool} {done done' : State} (hdone : admitted = true → done' = done) :
    NextAlikeInIdle (hostCommand admitted lengthsOk done s)
      (hostCommand admitted lengthsOk done' (s.withHidden S tag)) := by
  cases he : s.err with
  | true => exact ⟨_, _, hostCommand_faulted he, hostCommand_faulted he, .inr ⟨hph, S, tag, rfl⟩⟩
  | false =>
    cases admitted with
    | false => exact ⟨_, _, hostCommand_notAdmitted he, hostCommand_notAdmitted he, .inr ⟨hph, S, tag, rfl⟩⟩
    | true =>
      cases lengthsOk with
      | false => exact ⟨_, _, hostCommand_badLength he, hostCommand_badLength he, .inr ⟨hph, S, tag, rfl⟩⟩
      | true => exact ⟨_, _, hostCommand_done he, hostCommand_done he, .inl (hdone rfl)⟩

theorem engineOperation_alike (f : Form) (w : Width) (ca cb : Bool) (hhost : s.issuer = .host) :
    NextAlikeInIdle (engineOperation f w ca cb s) (engineOperation f w ca cb (s.withHidden S tag)) :=
  ⟨_, _, engineOperation_of_host f w ca cb hhost, engineOperation_of_host f w ca cb hhost,
    State.AlikeInIdle.illegalCommand (.inr ⟨hph, S, tag, rfl⟩)⟩

/-- In `IDLE` only `INIT` and `CLR` are admitted, and both overwrite `S` and `TAG` (R101, R122, R142). -/
theorem exec_withHidden (i : Instr) (hhost : s.issuer = .host) :
    NextAlikeInIdle (exec i s) (exec i (s.withHidden S tag)) := by
  have hclosed {p : Phase} (hp : p ≠ .idle) : (s.ph == p) ≠ true := by
    simp [hph, hp.symm]
  cases i with
  | step1 ca cb => exact engineOperation_alike hph S tag .encrypt .bits1 ca cb hhost
  | step1d ca cb => exact engineOperation_alike hph S tag .decrypt .bits1 ca cb hhost
  | step8 ca cb => exact engineOperation_alike hph S tag .encrypt .bits8 ca cb hhost
  | step8d ca cb => exact engineOperation_alike hph S tag .decrypt .bits8 ca cb hhost
  | step32 ca cb => exact engineOperation_alike hph S tag .encrypt .bits32 ca cb hhost
  | step32d ca cb => exact engineOperation_alike hph S tag .decrypt .bits32 ca cb hhost
  | clr => exact ⟨_, _, rfl, rfl, .refl _⟩
  | init => exact hostCommand_alike hph S tag fun _ => rfl
  | ad => exact hostCommand_alike hph S tag fun ha => absurd ha (hclosed (by decide))
  | pt => exact hostCommand_alike hph S tag fun ha => absurd ha (hclosed (by decide))
  | ct => exact hostCommand_alike hph S tag fun ha => absurd ha (hclosed (by decide))
  | fin => exact hostCommand_alike hph S tag fun ha => absurd ha (hclosed (by decide))
  | cmp =>
    exact hostCommand_alike hph S tag fun ha => absurd ((Bool.and_eq_true _ _).mp ha).1 (hclosed (by decide))

end

theorem exec_alike {a b : State} (h : a.AlikeInIdle b) (hhost : a.issuer = .host) (i : Instr) :
    NextAlikeInIdle (exec i a) (exec i b) := by
  rcases h with rfl | ⟨hph, S, tag, rfl⟩
  · obtain ⟨t, ht⟩ := exec_next i b
    exact ⟨t, t, ht, ht, .refl t⟩
  · exact exec_withHidden hph S tag i hhost

/-! ### One step and a run -/

/-- A word of the host that selects an operation is executed, never refused (R148). -/
theorem issueWord_of_ok {cw : Byte} {i : Instr} {s : State} (hd : decode cw = .ok i) (hhost : s.issuer = .host) :
    issueWord cw s = exec i s := by
  simp [issueWord, hd, hostWordAtEngine, hhost]

/-- A word of the host that selects none is illegal (R141). -/
theorem issueWord_of_error {cw : Byte} {e : DecodeError} {s : State} (hd : decode cw = .error e)
    (hhost : s.issuer = .host) : issueWord cw s = .next s.illegalCommand := by
  simp [issueWord, hd, undecodable, hhost]

theorem issueWord_alike {a b : State} (h : a.AlikeInIdle b) (ha : a.issuer = .host) (hb : b.issuer = .host)
    (cw : Byte) : NextAlikeInIdle (issueWord cw a) (issueWord cw b) := by
  cases hd : decode cw with
  | ok i =>
    rw [issueWord_of_ok hd ha, issueWord_of_ok hd hb]
    exact exec_alike h ha i
  | error e => exact ⟨_, _, issueWord_of_error hd ha, issueWord_of_error hd hb, h.illegalCommand⟩

theorem step_nil {s : State} (hp : s.pending = []) : step s = .next s := by
  simp [step, hp]

theorem step_cons {s : State} {r : Request} {rest : List Request} (hp : s.pending = r :: rest) :
    step s = releaseOutcome (issueWord r.word (s.present r rest)) := by
  simp [step, hp]

theorem step_alike {a b : State} (h : a.AlikeInIdle b) (hhost : a.HostOnly) : NextAlikeInIdle (step a) (step b) := by
  cases hp : a.pending with
  | nil => exact ⟨a, b, step_nil hp, step_nil (h.pending_eq.trans hp), h⟩
  | cons r rest =>
    have hr : r.issuer = .host := hhost.issuer_eq hp
    rw [step_cons hp, step_cons (h.pending_eq.trans hp)]
    exact (issueWord_alike (h.present r rest) hr hr r.word).release

/-- The simulation: runs of host commands from states alike in `IDLE` stay alike. -/
theorem runSteps_alike (n : Nat) {a b : State} (h : a.AlikeInIdle b) (hhost : a.HostOnly) :
    NextAlikeInIdle (runSteps n a) (runSteps n b) := by
  induction n generalizing a b with
  | zero => exact ⟨a, b, rfl, rfl, h⟩
  | succ n ih =>
    obtain ⟨a', b', ha, hb, h'⟩ := step_alike h hhost
    rw [runSteps_succ n ha, runSteps_succ n hb]
    exact ih h' (step_keeps_hostOnly hhost ha)

/-- Neither the results nor the status show `S` or `TAG` (R22). -/
theorem State.AlikeInIdle.observed {a b : State} (h : a.AlikeInIdle b) :
    a.results = b.results ∧ a.status = b.status ∧ a.pending = b.pending := by
  rcases h with rfl | ⟨_, S, tag, rfl⟩ <;> exact ⟨rfl, rfl, rfl⟩

/-- Settles O57, by the simulation between the two runs. -/
theorem resetValuesOfSAndTagAreUnobservable : Obligations.ResetValuesOfSAndTagAreUnobservable := by
  intro n s S tag hph hhost
  obtain ⟨a, b, ha, hb, hab⟩ := runSteps_alike n (.inr ⟨hph, S, tag, rfl⟩ : s.AlikeInIdle (s.withHidden S tag)) hhost
  exact ⟨a, b, ha, hb, hab.observed⟩

end Sys2Proof.Machine
end

section
/-!
PROOFS. Memory and operands (`20_memory.md`): a step runs the operation its word decodes to (R42), instances do not touch
each other (R47), control follows public data alone (R38), and output bytes follow their own input bytes (R31, R34).
-/

namespace Sys2Proof.Machine

/-! ### A step runs the decoded operation -/

/-- The engine's own words are executed, whoever presents them (R51, R60). -/
theorem issueWord_of_formatE {cw : Byte} {i : Instr} (s : State) (hd : decode cw = .ok i) (hE : i.isFormatE = true) :
    issueWord cw s = exec i s := by
  simp [issueWord, hd, hostWordAtEngine, hE]

/-- Settles O6: the presented word is executed when the host gives it and when it is an engine operation. -/
theorem stepRunsTheDecodedOperation : Obligations.StepRunsTheDecodedOperation := by
  intro s r rest i hp hd hwho
  rw [step_cons hp]
  rcases hwho with hhost | hE
  · rw [issueWord_of_ok hd (s := s.present r rest) hhost]
  · rw [issueWord_of_formatE _ hd hE]

/-! ### Instances -/

@[simp] theorem startInstances_getElem? {n k : Nat} (hk : k < n) : (startInstances n)[k]? = some State.reset := by
  simp [startInstances, hk]

theorem eventsOf_cons (k j : Nat) (e : InstanceEvent) (schedule : List (Nat × InstanceEvent)) :
    eventsOf k ((j, e) :: schedule) = if j = k then e :: eventsOf k schedule else eventsOf k schedule := by
  by_cases h : j = k <;> simp [eventsOf, h]

/-- The events of the others may be removed first. -/
theorem eventsOf_filter (k : Nat) (schedule : List (Nat × InstanceEvent)) :
    eventsOf k (schedule.filter (·.1 == k)) = eventsOf k schedule := by
  simp [eventsOf]

/-- A schedule takes `k` where the events of `k` alone take it (R47). -/
theorem runInstances_getElem? (schedule : List (Nat × InstanceEvent)) (xs : Instances) (k : Nat) :
    (runInstances schedule xs)[k]? = xs[k]?.map (runInstance (eventsOf k schedule)) := by
  induction schedule generalizing xs with
  | nil => exact Option.map_id'.symm
  | cons ke schedule ih =>
    obtain ⟨j, e⟩ := ke
    have hcons : runInstances ((j, e) :: schedule) xs = runInstances schedule (stepInstance j e xs) := rfl
    rw [hcons, ih, stepInstance_getElem?, eventsOf_cons]
    by_cases h : j = k
    · rw [if_pos h, if_pos h, Option.map_map]
      rfl
    · rw [if_neg h, if_neg h]

/-- Settles O60, by induction on the schedule; removing the events of the others leaves the events of `k`. -/
theorem instancesAreIndependent : Obligations.InstancesAreIndependent := by
  refine ⟨fun n => ⟨startInstances_length n, fun k hk => startInstances_getElem? hk⟩, fun schedule xs k => ⟨?own, ?removed⟩⟩
  case own => exact runInstances_getElem? schedule xs k
  case removed => rw [runInstances_getElem?, runInstances_getElem?, eventsOf_filter]

/-! ### Control depends on public data alone -/

/-- Both outcomes are next states that agree on everything public. -/
def NextPubliclyEqual (x y : Host.Outcome State Fault Refusal) : Prop :=
  ∃ a b, x = .next a ∧ y = .next b ∧ a.PubliclyEqual b

/-- What `INIT` to `CMP` and the engine write, `S`, `TAG` and `OK`, is not public, and of the results only the number is. -/
theorem State.PubliclyEqual.write {s t : State} (h : s.PubliclyEqual t) {S S' : Lfsr} {tag tag' : TagWord}
    {ok ok' : Bool} {ph ph' : Phase} {dir dir' : Direction} {results results' : List Result}
    (hph : ph = ph') (hdir : dir = dir') (hresults : results.length = results'.length) :
    State.PubliclyEqual
      { s with S := S, tag := tag, ok := ok, ph := ph, dir := dir, results := results }
      { t with S := S', tag := tag', ok := ok', ph := ph', dir := dir', results := results' } := by
  obtain ⟨_, _, herr, herrc, hissuer, hkey, hnonce, hadata, htext, htag, _⟩ := h
  exact ⟨hph, hdir, herr, herrc, hissuer, hkey, hnonce, hadata, htext, htag, hresults⟩

theorem State.PubliclyEqual.raise {s t : State} (h : s.PubliclyEqual t) (c : Cause) :
    (s.raise c).PubliclyEqual (t.raise c) := by
  obtain ⟨hph, hdir, _, _, hrest⟩ := h
  exact ⟨hph, hdir, rfl, rfl, hrest⟩

theorem State.PubliclyEqual.clearAll {s t : State} (h : s.PubliclyEqual t) : s.clearAll.PubliclyEqual t.clearAll := by
  obtain ⟨_, _, _, _, hrest⟩ := h
  exact ⟨rfl, rfl, rfl, rfl, hrest⟩

theorem State.PubliclyEqual.err_eq {s t : State} (h : s.PubliclyEqual t) : s.err = t.err := by
  obtain ⟨_, _, herr, _⟩ := h
  exact herr

theorem State.PubliclyEqual.issuer_eq {s t : State} (h : s.PubliclyEqual t) : s.issuer = t.issuer := by
  obtain ⟨_, _, _, _, hissuer, _⟩ := h
  exact hissuer

theorem State.PubliclyEqual.illegalCommand {s t : State} (h : s.PubliclyEqual t) :
    s.illegalCommand.PubliclyEqual t.illegalCommand := by
  unfold State.illegalCommand
  rw [← h.err_eq]
  cases s.err with
  | false => exact h.raise .illegalCommand
  | true => exact h

/-- Which of the four ends a host command has is decided by `ERR` and its two checks (R148). -/
theorem hostCommand_publiclyEqual {s t done done' : State} {admitted admitted' lengthsOk lengthsOk' : Bool}
    (h : s.PubliclyEqual t) (hadmitted : admitted = admitted') (hlengths : lengthsOk = lengthsOk')
    (hdone : done.PubliclyEqual done') :
    NextPubliclyEqual (hostCommand admitted lengthsOk done s) (hostCommand admitted' lengthsOk' done' t) := by
  subst hadmitted hlengths
  cases hs : s.err with
  | true => exact ⟨s, t, hostCommand_faulted hs, hostCommand_faulted (h.err_eq ▸ hs), h⟩
  | false =>
    have ht : t.err = false := h.err_eq ▸ hs
    cases admitted with
    | false => exact ⟨_, _, hostCommand_notAdmitted hs, hostCommand_notAdmitted ht, h.raise .sequence⟩
    | true =>
      cases lengthsOk with
      | false => exact ⟨_, _, hostCommand_badLength hs, hostCommand_badLength ht, h.raise .length⟩
      | true => exact ⟨_, _, hostCommand_done hs, hostCommand_done ht, hdone⟩

theorem engineOperation_of_controller (f : Form) (w : Width) (ca cb : Bool) {s : State} (hctl : s.issuer = .controller) :
    engineOperation f w ca cb s = .next (s.engineRun f w ca cb) := by
  simp [engineOperation, hctl]

/-- Whether an engine operation runs is decided by its issuer; one result is returned when it does (R60). -/
theorem engineOperation_publiclyEqual {s t : State} (h : s.PubliclyEqual t) (f : Form) (w : Width) (ca cb : Bool) :
    NextPubliclyEqual (engineOperation f w ca cb s) (engineOperation f w ca cb t) := by
  cases hs : s.issuer with
  | host =>
    have ht : t.issuer = .host := h.issuer_eq ▸ hs
    exact ⟨_, _, engineOperation_of_host f w ca cb hs, engineOperation_of_host f w ca cb ht, h.illegalCommand⟩
  | controller =>
    have ht : t.issuer = .controller := h.issuer_eq ▸ hs
    have ⟨hph, hdir, _, _, _, _, _, _, _, _, hresults⟩ := h
    exact ⟨_, _, engineOperation_of_controller f w ca cb hs, engineOperation_of_controller f w ca cb ht,
      h.write hph hdir (by simp [hresults])⟩

/-- `FIN` returns a tag or nothing by `DIR`, whatever the tag (R16). -/
theorem finResult_length (d : Direction) (T T' : List Byte) : (finResult d T).length = (finResult d T').length := by
  cases d <;> rfl

/-- Admission reads `PH` and `DIR`, the length checks read lengths, and the number of results a command returns is fixed by `DIR`. -/
theorem exec_publiclyEqual (i : Instr) {s t : State} (h : s.PubliclyEqual t) :
    NextPubliclyEqual (exec i s) (exec i t) := by
  have ⟨hph, hdir, _, _, _, hkey, hnonce, hadata, htext, htag, hresults⟩ := h
  cases i with
  | step1 ca cb => exact engineOperation_publiclyEqual h .encrypt .bits1 ca cb
  | step1d ca cb => exact engineOperation_publiclyEqual h .decrypt .bits1 ca cb
  | step8 ca cb => exact engineOperation_publiclyEqual h .encrypt .bits8 ca cb
  | step8d ca cb => exact engineOperation_publiclyEqual h .decrypt .bits8 ca cb
  | step32 ca cb => exact engineOperation_publiclyEqual h .encrypt .bits32 ca cb
  | step32d ca cb => exact engineOperation_publiclyEqual h .decrypt .bits32 ca cb
  | clr => exact ⟨_, _, rfl, rfl, h.clearAll⟩
  | init =>
    exact hostCommand_publiclyEqual h rfl (by simp [initLengthsOk, hkey, hnonce]) (h.write rfl rfl hresults)
  | ad =>
    exact hostCommand_publiclyEqual h (by rw [hph]) (congrArg withinLenMax hadata) (h.write rfl hdir hresults)
  | pt =>
    exact hostCommand_publiclyEqual h (by rw [hph]) (congrArg withinLenMax htext)
      (h.write rfl rfl (by simp [hresults]))
  | ct =>
    exact hostCommand_publiclyEqual h (by rw [hph]) (congrArg withinLenMax htext)
      (h.write rfl rfl (by simp [hresults]))
  | fin =>
    exact hostCommand_publiclyEqual h (by rw [hph]) rfl
      (h.write rfl hdir (by rw [List.length_append, List.length_append, hresults, hdir, finResult_length]))
  | cmp =>
    exact hostCommand_publiclyEqual h (by rw [hph, hdir]) (by simp [cmpLengthOk, htag])
      (h.write rfl hdir (by simp [hresults]))

/-- Settles O58: from publicly equal states every operation goes to publicly equal states. -/
theorem controlDependsOnPublicDataAlone : Obligations.ControlDependsOnPublicDataAlone := by
  intro i s t a b h ha hb
  obtain ⟨a', b', ha', hb', hab⟩ := exec_publiclyEqual i h
  cases ha.symm.trans ha'
  cases hb.symm.trans hb'
  exact hab

/-! ### Output bytes and input bytes -/

/-- Whole bytes pack separately (R34). -/
theorem packBytes_append (o : BitOrder) (n : Nat) (p q : List Bool) (h : p.length = 8 * n) :
    packBytes o (p ++ q) = packBytes o p ++ packBytes o q := by
  induction n generalizing p with
  | zero =>
    obtain rfl : p = [] := List.eq_nil_of_length_eq_zero (by omega)
    rfl
  | succ n ih =>
    have h8 : (p.take 8).length = 8 := by simp; omega
    have hsplit : p = p.take 8 ++ p.drop 8 := (List.take_append_drop 8 p).symm
    rw [hsplit, List.append_assoc, packBytes_append_eight o _ _ h8, packBytes_append_eight o _ _ h8,
      ih _ (by simp; omega), List.cons_append]

/-- The ciphertext of a text continues the ciphertext of its beginning (R104). -/
theorem ptText_append (o : BitOrder) (X Y : List Byte) (S : Lfsr) :
    (ptText o (X ++ Y) S).1 =
      (ptText o X S).1 ++ (ptText o Y (stepBits .encrypt true false (bitsOfBytes o X) S).2).1 := by
  simp only [ptText, bitsOfBytes_append, stepBits_append]
  rw [List.zipWith_append (by simp), packBytes_append o X.length _ _ (by simp)]

/-- The plaintext of a text continues the plaintext of its beginning (R105). -/
theorem ctText_append (o : BitOrder) (X Y : List Byte) (S : Lfsr) :
    (ctText o (X ++ Y) S).1 =
      (ctText o X S).1 ++ (ctText o Y (stepBits .decrypt true false (bitsOfBytes o X) S).2).1 := by
  simp only [ctText, bitsOfBytes_append, stepBits_append]
  rw [packBytes_append o X.length _ _ (by simp)]

@[simp] theorem ptText_length (o : BitOrder) (X : List Byte) (S : Lfsr) : (ptText o X S).1.length = X.length :=
  packBytes_length o X.length _ (by simp)

@[simp] theorem ctText_length (o : BitOrder) (X : List Byte) (S : Lfsr) : (ctText o X S).1.length = X.length :=
  packBytes_length o X.length _ (by simp)

/-- The output on a beginning of the text is the output of that beginning (R31). -/
theorem ptText_append_take (o : BitOrder) (X Y : List Byte) (S : Lfsr) :
    (ptText o (X ++ Y) S).1.take X.length = (ptText o X S).1 := by
  rw [ptText_append, List.take_left' (ptText_length o X S)]

theorem ctText_append_take (o : BitOrder) (X Y : List Byte) (S : Lfsr) :
    (ctText o (X ++ Y) S).1.take X.length = (ctText o X S).1 := by
  rw [ctText_append, List.take_left' (ctText_length o X S)]

/-- Settles O50: the common beginning fixes the output on it. -/
theorem outputDependsOnlyOnEarlierInput : Obligations.OutputDependsOnlyOnEarlierInput := by
  intro o X Y Z S
  constructor
  · rw [ptText_append_take, ptText_append_take]
  · rw [ctText_append_take, ctText_append_take]

/-! ### The keystream of one byte depends on `S` alone

A bit shifted in stands at index 292 and moves down by one with each step; the keystream reads no index above 235 (R73, R92). -/

/-- The bits below `m` are the same in both registers. -/
def AgreeBelow (m : Nat) (S T : Lfsr) : Prop := ∀ i, i < m → rbit S i = rbit T i

theorem AgreeBelow.refl (m : Nat) (S : Lfsr) : AgreeBelow m S S := fun _ _ => rfl

/-- The six writes in the order written, each bit by the state before them (R80). -/
theorem rbit_tapXors (S : Lfsr) (i : Nat) : rbit (tapXors S) i = tapXorBit S i := by
  simp only [tapXors, tapXorBit, rbit_writeBit, Nat.reduceLT, Nat.reduceEqDiff, if_false]
  grind

/-- The tap XORs read only bits below the one they write, or that one itself (R80). -/
theorem AgreeBelow.tapXors {m : Nat} {S T : Lfsr} (h : AgreeBelow m S T) (hm : 236 ≤ m) :
    AgreeBelow m (tapXors S) (tapXors T) := by
  intro i hi
  have hlow (j : Nat) (hj : j < 236) : rbit S j = rbit T j := h j (by omega)
  rw [rbit_tapXors, rbit_tapXors]
  by_cases h289 : i = 289
  · subst h289
    simp [tapXorBit, hlow, h 289 hi]
  · simp [tapXorBit, h289, hlow, h i hi]

/-- No tap of the keystream lies above 235 (R73). -/
theorem AgreeBelow.ksg128_eq {m : Nat} {S T : Lfsr} (h : AgreeBelow m S T) (hm : 236 ≤ m) : ksg128 S = ksg128 T := by
  have hlow (j : Nat) (hj : j < 236) : rbit S j = rbit T j := h j (by omega)
  simp [ksg128, hlow]

/-- The shift brings the first bit on which the registers may differ one index down, whatever is shifted in (R83). -/
theorem AgreeBelow.shiftIn {m : Nat} {S T : Lfsr} (h : AgreeBelow (m + 1) S T) (hm : m < 293) (u v : Bool) :
    AgreeBelow m (shiftIn S u) (shiftIn T v) := by
  intro i hi
  have hne : i ≠ 292 := by omega
  rw [rbit_shiftIn S u i (by omega), rbit_shiftIn T v i (by omega), if_neg hne, if_neg hne]
  exact h (i + 1) (by omega)

/-- Either form leaves the tap XORs shifted by one, and differs in the bit shifted in alone (R83 to R86). -/
theorem stepForm_snd (f : Form) (b ca cb : Bool) (S : Lfsr) :
    ∃ v, (stepForm f b ca cb S).2 = shiftIn (tapXors S) v := by
  cases f <;> exact ⟨_, rfl⟩

theorem AgreeBelow.stepForm {m : Nat} {S T : Lfsr} (h : AgreeBelow (m + 1) S T) (hlow : 235 ≤ m) (hm : m < 293)
    (f f' : Form) (b b' ca cb : Bool) : AgreeBelow m (stepForm f b ca cb S).2 (stepForm f' b' ca cb T).2 := by
  obtain ⟨u, hu⟩ := stepForm_snd f b ca cb S
  obtain ⟨v, hv⟩ := stepForm_snd f' b' ca cb T
  rw [hu, hv]
  exact (h.tapXors (by omega)).shiftIn hm u v

/-- As long as the registers agree on the taps, the decrypt form returns its input XOR the keystream of the other, whatever
the other absorbs. -/
theorem stepBits_decrypt_eq_xor (ca cb : Bool) {m : Nat} {c p : List Bool} {S T : Lfsr} (h : AgreeBelow m S T)
    (hlen : c.length = p.length) (hlow : 235 + c.length ≤ m) (hm : m ≤ 293) :
    (stepBits .decrypt ca cb c S).1 = List.zipWith (fun x y => x ^^ y) c (stepBits .encrypt ca cb p T).1 := by
  induction c generalizing m p S T with
  | nil => rfl
  | cons b c ih =>
    cases p with
    | nil => simp at hlen
    | cons b' p =>
      obtain ⟨m, rfl⟩ : ∃ n, m = n + 1 := ⟨m - 1, by omega⟩
      rw [List.length_cons] at hlow
      have hks : ksg128 (tapXors S) = ksg128 (tapXors T) := (h.tapXors (by omega)).ksg128_eq (by omega)
      have hbit : (stepForm .decrypt b ca cb S).1 = (b ^^ (stepForm .encrypt b' ca cb T).1) := by
        simp [stepForm, stepBit, stepBitD, hks, Bool.xor_comm]
      have hnext := h.stepForm (by omega) (by omega) .decrypt .encrypt b b' ca cb
      rw [stepBits_cons, stepBits_cons, List.zipWith_cons_cons, hbit,
        ih hnext (by simpa using hlen) (by omega) (by omega)]

/-- The eight keystream bits from `S`, as a byte (R31, R92). -/
def keystreamByte (o : BitOrder) (S : Lfsr) : Byte := bitsWord o 8 (stepBits .encrypt true false (zeros 8) S).1

/-- Expansion turns the XOR of bytes into the XOR of bits, in either bit order (R33). -/
theorem bitsOf_xor (o : BitOrder) (A B : Byte) :
    bitsOf o (A ^^^ B) = List.zipWith (fun x y => x ^^ y) (bitsOf o A) (bitsOf o B) := by
  cases o <;> simp [bitsOf, wordBits, List.zipWith_map]

/-- One byte of `CT` is the input byte XOR the keystream byte (R105). -/
theorem ctText_singleton (o : BitOrder) (B : Byte) (S : Lfsr) : (ctText o [B] S).1 = [B ^^^ keystreamByte o S] := by
  have hks : (stepBits .encrypt true false (zeros 8) S).1 = bitsOf o (keystreamByte o S) :=
    (bitsOf_bitsWord o _ (by simp)).symm
  have hbits : (stepBits .decrypt true false (bitsOf o B) S).1 = bitsOf o (B ^^^ keystreamByte o S) := by
    rw [stepBits_decrypt_eq_xor true false (.refl 293 S) (p := zeros 8) (by simp) (by simp) (by omega), hks, bitsOf_xor]
  calc (ctText o [B] S).1
      = packBytes o (stepBits .decrypt true false (bitsOf o B) S).1 := by simp [ctText]
    _ = packBytes o (bitsOfBytes o [B ^^^ keystreamByte o S]) := by simp [hbits]
    _ = [B ^^^ keystreamByte o S] := packBytes_bitsOfBytes o _

/-- The plaintext byte at a ciphertext byte's own place is that byte XOR a keystream byte the earlier ones fix (R31, R34). -/
theorem ctText_getD (o : BitOrder) (X Y : List Byte) (B : Byte) (S : Lfsr) :
    (ctText o (X ++ B :: Y) S).1.getD X.length 0#8 =
      B ^^^ keystreamByte o (stepBits .decrypt true false (bitsOfBytes o X) S).2 := by
  have hlen : (ctText o X S).1.length = X.length := ctText_length o X S
  rw [ctText_append, List.getD_append_right _ _ _ _ hlen.le, hlen, Nat.sub_self, ← List.singleton_append, ctText_append,
    ctText_singleton]
  rfl

/-- Settles O51: the earlier plaintext is that of the earlier ciphertext, and the byte differs as its ciphertext does. -/
theorem ciphertextBitFlipFlipsThePlaintextBit : Obligations.CiphertextBitFlipFlipsThePlaintextBit := by
  intro o X Y B j S _
  constructor
  · rw [ctText_append_take, ctText_append_take]
  · rw [ctText_getD, ctText_getD, BitVec.xor_assoc, BitVec.xor_assoc, BitVec.xor_comm (1#8 <<< j)]

end Sys2Proof.Machine
end

section
/-!
PROOFS. The encoding (`30_encoding.md`): the field tables cut and join a word without loss (R51, R52), decoding inverts
encoding (R54), the match and mask table selects the words that decode and no word twice (R54), the reserved words are those
of R55, and a word without meaning to whoever presents it is refused at the engine and illegal at the host (R55, R60).
-/

namespace Sys2Proof

/-! ### The fields of a word -/

/-- Bit `j` of a format-E word, by the field it falls in (R51). -/
theorem joinWord_formatE_getLsbD (w : BitVec 2) (d ca cb : Bool) (z : BitVec 2) (j : Nat) :
    (joinWord (.formatE w d ca cb z)).getLsbD j =
      if j < 2 then z.getLsbD j
      else if j = 2 then cb
      else if j = 3 then ca
      else if j = 4 then d
      else w.getLsbD (j - 5) := by
  have happend : (joinWord (.formatE w d ca cb z)).getLsbD j =
      (0#1 ++ w ++ BitVec.ofBool d ++ BitVec.ofBool ca ++ BitVec.ofBool cb ++ z).getLsbD j := rfl
  simp only [happend, BitVec.getLsbD_append, BitVec.getLsbD_ofBool]
  grind

/-- Bit `j` of a format-H word, by the field it falls in (R52). -/
theorem joinWord_formatH_getLsbD (z : BitVec 3) (op : BitVec 4) (j : Nat) :
    (joinWord (.formatH z op)).getLsbD j =
      if j < 4 then op.getLsbD j
      else if j < 7 then z.getLsbD (j - 4)
      else (1#1).getLsbD (j - 7) := by
  have happend : (joinWord (.formatH z op)).getLsbD j = (1#1 ++ z ++ op).getLsbD j := rfl
  simp only [happend, BitVec.getLsbD_append]
  grind

theorem splitWord_of_formatE {cw : Byte} (h : cw.getLsbD 7 = false) : splitWord cw =
    .formatE (cw.extractLsb' 5 2) (cw.getLsbD 4) (cw.getLsbD 3) (cw.getLsbD 2) (cw.extractLsb' 0 2) := by
  rw [splitWord, h]
  rfl

theorem splitWord_of_formatH {cw : Byte} (h : cw.getLsbD 7 = true) :
    splitWord cw = .formatH (cw.extractLsb' 4 3) (cw.extractLsb' 0 4) := by
  rw [splitWord, h]
  rfl

/-- Every field is read back from its own place (R51, R52). -/
theorem splitWord_joinWord (r : RawWord) : splitWord (joinWord r) = r := by
  cases r with
  | formatE w d ca cb z =>
    have h7 : (joinWord (.formatE w d ca cb z)).getLsbD 7 = false := by grind [joinWord_formatE_getLsbD]
    have hw : (joinWord (.formatE w d ca cb z)).extractLsb' 5 2 = w := by
      apply BitVec.eq_of_getLsbD_eq
      grind [joinWord_formatE_getLsbD]
    have hz : (joinWord (.formatE w d ca cb z)).extractLsb' 0 2 = z := by
      apply BitVec.eq_of_getLsbD_eq
      grind [joinWord_formatE_getLsbD]
    rw [splitWord_of_formatE h7, hw, hz]
    simp only [joinWord_formatE_getLsbD]
    rfl
  | formatH z op =>
    have h7 : (joinWord (.formatH z op)).getLsbD 7 = true := by grind [joinWord_formatH_getLsbD]
    have hz : (joinWord (.formatH z op)).extractLsb' 4 3 = z := by
      apply BitVec.eq_of_getLsbD_eq
      grind [joinWord_formatH_getLsbD]
    have hop : (joinWord (.formatH z op)).extractLsb' 0 4 = op := by
      apply BitVec.eq_of_getLsbD_eq
      grind [joinWord_formatH_getLsbD]
    rw [splitWord_of_formatH h7, hz, hop]

/-- No bit of a word lies outside its fields (R51, R52). -/
theorem joinWord_splitWord (cw : Byte) : joinWord (splitWord cw) = cw := by
  refine BitVec.eq_of_getLsbD_eq fun j hj => ?_
  cases h7 : cw.getLsbD 7 with
  | false =>
    rw [splitWord_of_formatE h7, joinWord_formatE_getLsbD]
    grind
  | true =>
    rw [splitWord_of_formatH h7, joinWord_formatH_getLsbD]
    grind

/-! ### Decoding and encoding -/

/-- The operation decoded from format-E fields has these fields (R51, R54). -/
theorem raw_of_decodeE {w z : BitVec 2} {d ca cb : Bool} {i : Instr} (h : decodeE w d ca cb z = .ok i) :
    i.raw = .formatE w d ca cb z := by
  unfold decodeE at h
  split at h
  · cases h
  · next hz =>
    obtain rfl : z = 0#2 := by simpa using hz
    split at h <;> cases h <;> simp [Instr.raw, ← BitVec.toNat_inj, *]

/-- The operation decoded from format-H fields has these fields (R52, R54). -/
theorem raw_of_decodeH {z : BitVec 3} {op : BitVec 4} {i : Instr} (h : decodeH z op = .ok i) :
    i.raw = .formatH z op := by
  unfold decodeH at h
  split at h
  · cases h
  · next hz =>
    obtain rfl : z = 0#3 := by simpa using hz
    split at h <;> cases h <;> simp [Instr.raw, ← BitVec.toNat_inj, *]

/-- A word selects an operation exactly when its fields are the ones R54 gives the operation. -/
theorem decode_eq_ok_iff {cw : Byte} {i : Instr} : decode cw = .ok i ↔ splitWord cw = i.raw := by
  constructor
  · intro h
    unfold decode at h
    split at h
    · next hs => rw [hs, raw_of_decodeE h]
    · next hs => rw [hs, raw_of_decodeH h]
  · intro h
    unfold decode
    rw [h]
    cases i <;> rfl

theorem decode_encode (i : Instr) : decode (encode i) = .ok i :=
  decode_eq_ok_iff.mpr (splitWord_joinWord i.raw)

theorem encode_of_decode {cw : Byte} {i : Instr} (h : decode cw = .ok i) : encode i = cw :=
  calc encode i
      = joinWord (splitWord cw) := by rw [encode, decode_eq_ok_iff.mp h]
    _ = cw := joinWord_splitWord cw

/-- The checks of R55 do not look at the control bits, and the fields of every operation pass them. -/
theorem wellFormed_eq_true (i : Instr) : i.wellFormed = true := by
  cases i <;> rfl

/-- Settles O3: cutting and joining a word are inverse, and a word decodes by the fields of its operation. -/
theorem decodeAndEncodeAgree : Obligations.DecodeAndEncodeAgree :=
  ⟨fun i => ⟨wellFormed_eq_true i, decode_encode i⟩, fun _ _ => encode_of_decode⟩

/-- Settles O2: each word evaluated; for every word of every row see `decode_encode`. -/
theorem decodeReadsWordsWrittenOut : Obligations.DecodeReadsWordsWrittenOut :=
  ⟨rfl, rfl, rfl, rfl, rfl, rfl, rfl, rfl, rfl, rfl, rfl, rfl, rfl⟩

/-! ### The match and mask table -/

/-- The word of an operation selects the operation's row, whatever its control bits (R54). -/
theorem encode_selects_its_row (i : Instr) : Laws.WordSelectsItsRow.Statement i := by
  cases i with
  | step1 ca cb => exact Laws.WordSelectsItsRow.step1 ca cb
  | step1d ca cb => exact Laws.WordSelectsItsRow.step1d ca cb
  | step8 ca cb => exact Laws.WordSelectsItsRow.step8 ca cb
  | step8d ca cb => exact Laws.WordSelectsItsRow.step8d ca cb
  | step32 ca cb => exact Laws.WordSelectsItsRow.step32 ca cb
  | step32d ca cb => exact Laws.WordSelectsItsRow.step32d ca cb
  | clr => exact Laws.WordSelectsItsRow.clr
  | init => exact Laws.WordSelectsItsRow.init
  | ad => exact Laws.WordSelectsItsRow.ad
  | pt => exact Laws.WordSelectsItsRow.pt
  | ct => exact Laws.WordSelectsItsRow.ct
  | fin => exact Laws.WordSelectsItsRow.fin
  | cmp => exact Laws.WordSelectsItsRow.cmp

theorem selects_iff {r : OpcodeRow} {cw : Byte} : r.selects cw = true ↔ cw &&& r.mask = r.pattern := by
  simp [OpcodeRow.selects]

/-- The byte that holds the control bits at their places and is 0 elsewhere (R51). -/
def controlBits (ca cb : Bool) : Byte := joinWord (.formatE 0#2 false ca cb 0#2)

/-- `controlBits` cuts the control bits out of a word. -/
theorem and_controlBits_eq (cw : Byte) :
    cw &&& controlBits true true = controlBits (cw.getLsbD 3) (cw.getLsbD 2) := by
  refine BitVec.eq_of_getLsbD_eq fun j hj => ?_
  simp only [controlBits, BitVec.getLsbD_and, joinWord_formatE_getLsbD]
  grind

/-- The bits a mask of the table leaves free are control bits. -/
theorem not_mask_eq_controlBits : ∀ r ∈ opcodeTable, ~~~r.mask = controlBits true true &&& ~~~r.mask := by
  decide

/-- Whatever the free bits, the words of a row decode. -/
theorem pattern_or_controlBits_decodes : ∀ r ∈ opcodeTable, ∀ ca cb : Bool,
    (decode (r.pattern ||| (controlBits ca cb &&& ~~~r.mask))).isOk = true := by
  decide

/-- A word that selects a row is the row's pattern and its own control bits, where the mask leaves these free. -/
theorem eq_pattern_or_controlBits {r : OpcodeRow} {cw : Byte} (hr : r ∈ opcodeTable) (h : r.selects cw = true) :
    cw = r.pattern ||| (controlBits (cw.getLsbD 3) (cw.getLsbD 2) &&& ~~~r.mask) :=
  calc cw
      = (cw &&& r.mask) ||| (cw &&& ~~~r.mask) := by
        rw [← BitVec.and_or_distrib_left, BitVec.or_not_self, BitVec.and_allOnes]
    _ = r.pattern ||| (cw &&& (controlBits true true &&& ~~~r.mask)) := by
        rw [selects_iff.mp h, ← not_mask_eq_controlBits r hr]
    _ = r.pattern ||| (controlBits (cw.getLsbD 3) (cw.getLsbD 2) &&& ~~~r.mask) := by
        rw [← BitVec.and_assoc, and_controlBits_eq]

theorem selects_eq_false_of_error {r : OpcodeRow} {cw : Byte} {e : DecodeError} (hr : r ∈ opcodeTable)
    (h : decode cw = .error e) : r.selects cw = false := by
  refine Bool.eq_false_iff.mpr fun hs => ?_
  have hok := pattern_or_controlBits_decodes r hr (cw.getLsbD 3) (cw.getLsbD 2)
  rw [← eq_pattern_or_controlBits hr hs, h] at hok
  cases hok

/-- Two rows differ in a bit that both masks fix. -/
theorem opcodeTable_pairwise_disjoint :
    opcodeTable.Pairwise fun r r' => r.pattern &&& r'.mask ≠ r'.pattern &&& r.mask := by
  decide

/-- A word that selects two rows has both patterns, so they agree wherever both masks fix a bit. -/
theorem pattern_and_mask_eq {r r' : OpcodeRow} {cw : Byte} (h : r.selects cw = true) (h' : r'.selects cw = true) :
    r.pattern &&& r'.mask = r'.pattern &&& r.mask := by
  rw [← selects_iff.mp h, ← selects_iff.mp h', BitVec.and_assoc, BitVec.and_assoc, BitVec.and_comm r.mask]

theorem selected_rows_length_le_one (cw : Byte) : (opcodeTable.filter (·.selects cw)).length ≤ 1 := by
  have hdisjoint := opcodeTable_pairwise_disjoint.filter (·.selects cw)
  match hrows : opcodeTable.filter (·.selects cw) with
  | [] => simp [hrows]
  | [_] => simp [hrows]
  | r :: r' :: rest =>
    have hr : r ∈ opcodeTable.filter (·.selects cw) := by simp [hrows]
    have hr' : r' ∈ opcodeTable.filter (·.selects cw) := by simp [hrows]
    rw [hrows] at hdisjoint
    exact absurd (pattern_and_mask_eq (List.mem_filter.mp hr).2 (List.mem_filter.mp hr').2)
      (List.rel_of_pairwise_cons hdisjoint (by simp))

/-- Settles O4: a word that decodes is its operation's own word, which selects the row; a word of a row decodes; and the rows
are disjoint. -/
theorem decodeFollowsTheOpcodeMap : Obligations.DecodeFollowsTheOpcodeMap := by
  refine ⟨fun cw i h => ?_, fun cw e h r hr => selects_eq_false_of_error hr h, selected_rows_length_le_one⟩
  obtain ⟨r, hr, hmnemonic, hselects⟩ := encode_selects_its_row i
  exact ⟨r, hr, encode_of_decode h ▸ hselects, hmnemonic⟩

/-! ### The reserved words -/

theorem decode_of_formatE {cw : Byte} (h : cw.getLsbD 7 = false) :
    decode cw = decodeE (cw.extractLsb' 5 2) (cw.getLsbD 4) (cw.getLsbD 3) (cw.getLsbD 2) (cw.extractLsb' 0 2) := by
  rw [decode, splitWord_of_formatE h]

theorem decode_of_formatH {cw : Byte} (h : cw.getLsbD 7 = true) :
    decode cw = decodeH (cw.extractLsb' 4 3) (cw.extractLsb' 0 4) := by
  rw [decode, splitWord_of_formatH h]

theorem decodeE_reservedBits (w : BitVec 2) (d ca cb : Bool) {z : BitVec 2} (hz : z ≠ 0#2) :
    decodeE w d ca cb z = .error .reservedBitsE := by
  simp [decodeE, hz]

theorem decodeE_reservedWidth (d ca cb : Bool) : decodeE 3#2 d ca cb 0#2 = .error .reservedWidth := by
  cases d <;> rfl

theorem decodeH_reservedBits {z : BitVec 3} (op : BitVec 4) (hz : z ≠ 0#3) :
    decodeH z op = .error .reservedBitsH := by
  simp [decodeH, hz]

theorem decodeH_unassigned {op : BitVec 4} (hop : 7 ≤ op.toNat) : decodeH 0#3 op = .error .unassignedOp := by
  obtain ⟨n, hn⟩ : ∃ n, op.toNat = n + 7 := ⟨op.toNat - 7, by omega⟩
  simp [decodeH, hn]

/-- Settles O5: the format bit selects the field decoder (R50), whose checks name the four classes of R55. -/
theorem reservedWordsAreRejected : Obligations.ReservedWordsAreRejected := by
  intro cw
  refine ⟨fun h7 hz => ?reservedBitsE, fun h7 hz hw => ?reservedWidth, fun h7 hz => ?reservedBitsH,
    fun h7 hz hop => ?unassignedOp⟩
  case reservedBitsE => rw [decode_of_formatE h7, decodeE_reservedBits _ _ _ _ hz]
  case reservedWidth => rw [decode_of_formatE h7, hw, hz, decodeE_reservedWidth]
  case reservedBitsH => rw [decode_of_formatH h7, decodeH_reservedBits _ hz]
  case unassignedOp => rw [decode_of_formatH h7, hz, decodeH_unassigned hop]

end Sys2Proof

namespace Sys2Proof.Machine

/-! ### Words without meaning to whoever presents them -/

theorem issueWord_of_error_at_engine {cw : Byte} {e : DecodeError} {s : State} (hd : decode cw = .error e)
    (hctl : s.issuer = .controller) : issueWord cw s = .refused (.reservedEngineWord cw) := by
  simp [issueWord, hd, undecodable, hctl]

theorem issueWord_of_formatH_at_engine {cw : Byte} {i : Instr} {s : State} (hd : decode cw = .ok i)
    (hH : i.isFormatE = false) (hctl : s.issuer = .controller) : issueWord cw s = .refused (.hostWordAtEngine cw) := by
  simp [issueWord, hd, hostWordAtEngine, hctl, hH]

@[simp] theorem releaseOutcome_refused (r : Refusal) : releaseOutcome (.refused r) = .refused r := rfl

/-- Settles O9: the presented word is refused, and there is no state whose operands would be released. -/
theorem engineRefusesWordsWithoutMeaning : Obligations.EngineRefusesWordsWithoutMeaning := by
  intro s r rest hp hctl
  have hpresented : (s.present r rest).issuer = .controller := hctl
  constructor
  · intro e hd
    rw [step_cons hp, issueWord_of_error_at_engine hd hpresented, releaseOutcome_refused]
  · intro i hd hH
    rw [step_cons hp, issueWord_of_formatH_at_engine hd hH hpresented, releaseOutcome_refused]

/-- No engine operation runs for the host (R60, R141). -/
theorem exec_formatE_of_host {i : Instr} {s : State} (hE : i.isFormatE = true) (hhost : s.issuer = .host) :
    exec i s = .next s.illegalCommand := by
  cases i with
  | step1 ca cb => exact engineOperation_of_host .encrypt .bits1 ca cb hhost
  | step1d ca cb => exact engineOperation_of_host .decrypt .bits1 ca cb hhost
  | step8 ca cb => exact engineOperation_of_host .encrypt .bits8 ca cb hhost
  | step8d ca cb => exact engineOperation_of_host .decrypt .bits8 ca cb hhost
  | step32 ca cb => exact engineOperation_of_host .encrypt .bits32 ca cb hhost
  | step32d ca cb => exact engineOperation_of_host .decrypt .bits32 ca cb hhost
  | clr | init | ad | pt | ct | fin | cmp => cases hE

theorem illegalCommand_of_ready {s : State} (he : s.err = false) : s.illegalCommand = s.raise .illegalCommand := by
  simp [State.illegalCommand, he]

theorem illegalCommand_of_faulted {s : State} (he : s.err = true) : s.illegalCommand = s := by
  simp [State.illegalCommand, he]

/-- Settles O23: the host's engine operation is illegal, which is the exception unless a fault stands (R141, R144). -/
theorem hostIssuedEngineOperationsAreIllegal : Obligations.HostIssuedEngineOperationsAreIllegal := by
  intro i s hE hhost
  rw [exec_formatE_of_host hE hhost]
  constructor
  · intro he
    rw [illegalCommand_of_ready he]
    rfl
  · intro he
    rw [illegalCommand_of_faulted he]

end Sys2Proof.Machine
end

section
/-!
PROOFS. The combinational network (R70 to R74): the two three-input gates and their lifting to lanes, then the two functions
of `S` by their taps, on the corner-case registers, and within one single-bit step.
-/

namespace Sys2Proof.Machine

/-! ### The majority gate -/

/-- One input is 1 already, so one more is a majority (R70). -/
@[simp] theorem maj_true (y z : Bool) : maj true y z = (y || z) := by
  cases y <;> cases z <;> rfl

/-- With one input 0, both others are needed (R70). -/
@[simp] theorem maj_false (y z : Bool) : maj false y z = (y && z) := by
  simp [maj]

theorem maj_swap_left (x y z : Bool) : maj x y z = maj y x z := by
  cases x <;> cases y <;> simp

theorem maj_swap_right (x y z : Bool) : maj x y z = maj x z y := by
  cases x with
  | false => simp [Bool.and_comm]
  | true => simp [Bool.or_comm]

theorem maj_swap_outer (x y z : Bool) : maj x y z = maj z y x :=
  calc maj x y z = maj y x z := maj_swap_left x y z
    _ = maj y z x := maj_swap_right y x z
    _ = maj z y x := maj_swap_left y z x

theorem maj_eq_true_iff (x y z : Bool) : maj x y z = true ↔ 2 ≤ x.toNat + y.toNat + z.toNat := by
  cases x with
  | false => cases y <;> cases z <;> simp
  | true => cases y <;> cases z <;> simp

/-- Settles O12: the model's definition is the formula; the majority reading and the symmetry are read off the gate with one
input fixed. -/
theorem majIsTheMajority : Obligations.MajIsTheMajority := fun x y z =>
  ⟨rfl, maj_eq_true_iff x y z, maj_swap_left x y z, maj_swap_right x y z, maj_swap_outer x y z⟩

/-! ### The selector gate -/

@[simp] theorem ch_true (y z : Bool) : ch true y z = y := by simp [ch]

@[simp] theorem ch_false (y z : Bool) : ch false y z = z := by simp [ch]

theorem ch_eq_ite (x y z : Bool) : ch x y z = if x then y else z := by
  cases x with
  | false => exact ch_false y z
  | true => exact ch_true y z

/-- Settles O13: at `x = 0`, `y = 1`, `z = 1` the gate gives `z`, and with its first two inputs exchanged it gives 0. -/
theorem chSelectsByItsFirstArgument : Obligations.ChSelectsByItsFirstArgument := by
  refine ⟨fun x y z => ⟨rfl, ch_eq_ite x y z⟩, false, true, true, ?_⟩
  rw [ch_false, ch_true]
  decide

/-! ### The gates on lanes -/

/-- AND and XOR of vectors act on each lane alone (R72). -/
theorem getLsbD_majLanes {n : Nat} (x y z : BitVec n) (j : Nat) :
    (majLanes x y z).getLsbD j = maj (x.getLsbD j) (y.getLsbD j) (z.getLsbD j) := by
  simp [majLanes, maj]

/-- The complement of a vector is 1 on its own lanes only, so `j` has to be one of them (R72). -/
theorem getLsbD_chLanes {n : Nat} (x y z : BitVec n) {j : Nat} (hj : j < n) :
    (chLanes x y z).getLsbD j = ch (x.getLsbD j) (y.getLsbD j) (z.getLsbD j) := by
  simp [chLanes, ch, hj]

/-- Settles O14: lane by lane, each lifted gate is the gate. -/
theorem lanesAreIndependent : Obligations.LanesAreIndependent := fun _ x y z j hj =>
  ⟨getLsbD_majLanes x y z j, getLsbD_chLanes x y z hj⟩

/-! ### The corner-case registers

Below, `simp` keeps these registers in the form they are written in, not as one number each. -/

@[simp] theorem rbit_zero (i : Nat) : rbit 0#293 i = false := BitVec.getLsbD_zero

theorem rbit_allOnes {i : Nat} (hi : i < 293) : rbit (BitVec.allOnes 293) i = true := by
  rw [rbit_eq, BitVec.getLsbD_allOnes, decide_eq_true hi]

/-- The register with only `s[k] = 1`. -/
theorem rbit_oneHot {k : Nat} (hk : k < 293) (i : Nat) : rbit (1#293 <<< k) i = decide (i = k) := by
  have hwrite : 1#293 <<< k = writeBit 0#293 k true := by simp [writeBit]
  rw [hwrite, rbit_writeBit _ _ _ _ hk, rbit_zero]
  by_cases h : i = k <;> simp [h]

/-! ### The keystream bit -/

theorem ksg128_zero : ksg128 0#293 = false := by simp [ksg128]

theorem ksg128_allOnes : ksg128 (BitVec.allOnes 293) = false := by
  simp [ksg128, rbit_allOnes, -BitVec.reduceAllOnes]

/-- A tap outside the two gates decides the bit alone (R73). -/
theorem ksg128_oneHot_12 : ksg128 (1#293 <<< 12) = true := by
  simp [ksg128, rbit_oneHot, -BitVec.reduceHShiftLeft]

theorem stepBit_fst (m ca cb : Bool) (S : Lfsr) : (stepBit m ca cb S).1 = ksg128 (tapXors S) := rfl

/-- Settles O15: the model's definition is the formula; the corner cases put every tap's value into it. -/
theorem keystreamBitReadsItsEightTaps : Obligations.KeystreamBitReadsItsEightTaps :=
  ⟨fun _ => rfl, ksg128_zero, ksg128_allOnes, ksg128_oneHot_12, stepBit_fst⟩

/-! ### The feedback bit -/

theorem fbk128_zero (ca cb : Bool) : fbk128 0#293 ca cb false = true := by simp [fbk128]

theorem fbk128_allOnes (ca cb : Bool) : fbk128 (BitVec.allOnes 293) ca cb false = ca := by
  simp [fbk128, rbit_allOnes, -BitVec.reduceAllOnes]

/-- The only read of `s[196]` is gated by `ca` (R74). -/
theorem fbk128_writeBit_196 (S : Lfsr) (v cb ks : Bool) : fbk128 (writeBit S 196 v) false cb ks = fbk128 S false cb ks := by
  simp [fbk128, rbit_writeBit]

/-- The keystream bit is gated by `cb` (R74). -/
theorem fbk128_without_cb (S : Lfsr) (ca ks : Bool) : fbk128 S ca false ks = fbk128 S ca false false := by
  simp [fbk128]

theorem stepBit_snd (m ca cb : Bool) (S : Lfsr) :
    (stepBit m ca cb S).2 = shiftIn (tapXors S) (fbk128 (tapXors S) ca cb (stepBit m ca cb S).1 ^^ m) := rfl

/-- The feedback bit enters at the newest index, with the message bit (R82, R83). -/
theorem rbit_stepBit_newest (m ca cb : Bool) (S : Lfsr) :
    rbit (stepBit m ca cb S).2 292 = (fbk128 (tapXors S) ca cb (stepBit m ca cb S).1 ^^ m) := by
  rw [stepBit_snd, rbit_shiftIn _ _ _ (by decide), if_pos rfl]

/-- Settles O16: the model's definition is the formula, each control bit gates one of its inputs, and the step shifts the
feedback bit in at index 292. -/
theorem feedbackBitReadsItsSixTaps : Obligations.FeedbackBitReadsItsSixTaps :=
  ⟨fun _ _ _ _ => rfl, fun ca cb => ⟨fbk128_zero ca cb, fbk128_allOnes ca cb⟩, fbk128_writeBit_196, fbk128_without_cb,
    rbit_stepBit_newest⟩

end Sys2Proof.Machine
end

section
/-!
PROOFS. The single-bit step and the engine operations (R80 to R91): what a step leaves in each bit of `S`, its corner cases,
and the six engine operations by index, each as many steps as its width has bits; a wide one is four narrow ones.
-/

namespace Sys2Proof.Machine

/-! ### Every operation answers -/

/-- Settles O10, by the outcomes of the checks on a command and of an engine operation. -/
theorem everyOperationAnswersANextState : Obligations.EveryOperationAnswersANextState := exec_next

/-! ### The single-bit step -/

/-- Settles O17: each write reads bits that no earlier one has written. -/
theorem tapXorsReadTheStateBeforeThem : Obligations.TapXorsReadTheStateBeforeThem := rbit_tapXors

/-- The bit a step in either form puts at index 292: the feedback bit XOR the message bit, which the decrypt form recovers
first (R82, R85, R86). -/
def bitShiftedIn (f : Form) (b ca cb : Bool) (S : Lfsr) : Bool :=
  fbk128 (tapXors S) ca cb (ksg128 (tapXors S)) ^^
    match f with
    | .encrypt => b
    | .decrypt => ksg128 (tapXors S) ^^ b

theorem stepBit_eq (m ca cb : Bool) (S : Lfsr) :
    stepBit m ca cb S = (ksg128 (tapXors S), shiftIn (tapXors S) (bitShiftedIn .encrypt m ca cb S)) := rfl

theorem stepBitD_eq (c ca cb : Bool) (S : Lfsr) :
    stepBitD c ca cb S = (ksg128 (tapXors S) ^^ c, shiftIn (tapXors S) (bitShiftedIn .decrypt c ca cb S)) := rfl

/-- Either form shifts its one new bit into the state the tap XORs leave (R83). -/
theorem stepForm_snd_eq (f : Form) (b ca cb : Bool) (S : Lfsr) :
    (stepForm f b ca cb S).2 = shiftIn (tapXors S) (bitShiftedIn f b ca cb S) := by
  cases f <;> rfl

/-- Settles O18: the returned bits are the model's by definition, the bits of the next state those of the shift. -/
theorem stepShiftsAndReturns : Obligations.StepShiftsAndReturns := by
  intro b ca cb S
  have hold (v : Bool) (i : Nat) (hi : i < 292) : rbit (shiftIn (tapXors S) v) i = rbit (tapXors S) (i + 1) := by
    rw [rbit_shiftIn _ _ _ (by omega), if_neg (by omega)]
  have hnew (v : Bool) : rbit (shiftIn (tapXors S) v) 292 = v := rbit_shiftIn _ _ _ (by omega)
  exact ⟨rfl, rfl, fun i hi => ⟨hold _ i hi, hold _ i hi⟩, hnew _, hnew _⟩

/-- Settles O20: the ciphertext bit XOR the keystream bit is the message bit again, so both forms shift in the same bit. -/
theorem decryptStepRecoversTheMessageBit : Obligations.DecryptStepRecoversTheMessageBit := by
  intro m ca cb S
  have hrec : (ksg128 (tapXors S) ^^ (m ^^ ksg128 (tapXors S))) = m := by
    rw [Bool.xor_comm m, ← Bool.xor_assoc, Bool.xor_self, Bool.false_xor]
  simp [stepBit_eq, stepBitD_eq, bitShiftedIn, hrec]

/-! ### The corner-case registers -/

theorem tapXors_zero : tapXors 0#293 = 0#293 :=
  lfsr_ext fun i _ => by simp [rbit_tapXors, tapXorBit]

/-- Each target of a tap XOR receives the XOR of three ones (R80). -/
theorem tapXors_allOnes : tapXors (BitVec.allOnes 293) = BitVec.allOnes 293 :=
  lfsr_ext fun i hi => by simp [rbit_tapXors, tapXorBit, rbit_allOnes, hi, -BitVec.reduceAllOnes]

theorem shiftIn_zero_false : shiftIn 0#293 false = 0#293 :=
  lfsr_ext fun i hi => by simp [rbit_shiftIn _ _ _ hi]

theorem bitShiftedIn_zero (f : Form) (b ca cb : Bool) : bitShiftedIn f b ca cb 0#293 = !b := by
  cases f <;> simp [bitShiftedIn, tapXors_zero, ksg128_zero, fbk128_zero]

/-- Settles O19: the tap XORs leave either register as it is, and the keystream bit of both is 0. -/
theorem stepOnTheSpecialStates : Obligations.StepOnTheSpecialStates := by
  intro m ca cb
  refine ⟨?encrypt, ?fixed, ?decrypt, ?allOnes⟩
  case encrypt => rw [stepBit_eq, bitShiftedIn_zero, tapXors_zero, ksg128_zero]
  case fixed => rw [stepBit_eq, bitShiftedIn_zero, tapXors_zero, ksg128_zero, Bool.not_true, shiftIn_zero_false]
  case decrypt =>
    rw [stepBitD_eq, bitShiftedIn_zero, tapXors_zero, ksg128_zero, Bool.not_true, shiftIn_zero_false, Bool.false_xor]
  case allOnes =>
    simp only [stepBit_eq, bitShiftedIn, tapXors_allOnes, ksg128_allOnes, fbk128_allOnes]

/-! ### The engine operations -/

/-- Pushing a bit in at position 0 moves the others up by one (R35). -/
theorem bitsWord_lsbFirst_cons (n : Nat) (b : Bool) (q : List Bool) :
    bitsWord .lsbFirst n (b :: q) = (bitsWord .lsbFirst n q <<< 1) ||| BitVec.setWidth n (BitVec.ofBool b) := rfl

/-- Bit `j` of the word that carries a sequence is the sequence's bit `j` (R35). -/
theorem getLsbD_bitsWord {n j : Nat} (q : List Bool) (hj : j < n) :
    (bitsWord .lsbFirst n q).getLsbD j = q.getD j false := by
  induction q generalizing j with
  | nil => simp [bitsWord]
  | cons b q ih =>
    rw [bitsWord_lsbFirst_cons, BitVec.getLsbD_or, BitVec.getLsbD_shiftLeft, BitVec.getLsbD_setWidth]
    cases j with
    | zero => simp [hj]
    | succ j => simp [hj, ih (by omega : j < n)]

/-- Bit `j` of the sequence a word carries is the word's bit `j` (R35). -/
theorem wordBits_getD {n w j : Nat} (W : BitVec n) (hj : j < w) :
    (wordBits .lsbFirst w W).getD j false = W.getLsbD j := by
  simp [wordBits, List.getD_eq_getElem?_getD, hj]

/-- The state an engine operation leaves is that of as many single-bit steps as its width has bits, by index (R91). -/
theorem engineStep_snd (f : Form) (w : Width) (ca cb : Bool) (din : Word32) (S : Lfsr) :
    (engineStep f w ca cb din S).2 = stateAfter f ca cb (wordBit din) S (widthBits w) :=
  calc (stepBits f ca cb (wordBits .lsbFirst (widthBits w) din) S).2
      = stateAfter f ca cb (fun k => (wordBits .lsbFirst (widthBits w) din).getD k false) S (widthBits w) := by
        rw [stepBits_state, wordBits_length]
    _ = stateAfter f ca cb (wordBit din) S (widthBits w) := stateAfter_congr fun _ hk => wordBits_getD din hk

theorem widthBits_le (w : Width) : widthBits w ≤ 32 := by cases w <;> decide

/-- Bit `j` of the returned word is the bit step `j` returns, and the carrier's unused bits are 0 (R35, R91; log entry 8). -/
theorem getLsbD_engineStep_fst (f : Form) (w : Width) (ca cb : Bool) (din : Word32) (S : Lfsr) (j : Nat) :
    (engineStep f w ca cb din S).1.getLsbD j =
      if j < widthBits w then bitReturned f ca cb (wordBit din) S j else false := by
  have hword : (engineStep f w ca cb din S).1 = BitVec.setWidth 32 (bitsWord .lsbFirst (widthBits w)
      (stepBits f ca cb (wordBits .lsbFirst (widthBits w) din) S).1) := rfl
  rw [hword, BitVec.getLsbD_setWidth]
  split
  · next hj =>
    have hbits : bitReturned f ca cb (fun k => (wordBits .lsbFirst (widthBits w) din).getD k false) S j =
        bitReturned f ca cb (wordBit din) S j := bitReturned_congr fun k hk => wordBits_getD din (by omega)
    have hw := widthBits_le w
    rw [getLsbD_bitsWord _ hj, stepBits_bit _ _ _ _ _ _ (by simpa using hj), hbits, decide_eq_true (by omega),
      Bool.true_and]
  · next hj => rw [BitVec.getLsbD_of_ge _ _ (by omega), Bool.and_false]

/-- An engine operation the controller gives completes, in whatever state (R85 to R90, R95). -/
theorem engineCompletes {i : Instr} {f : Form} {w : Width} {ca cb : Bool} {s : State} (hctl : s.issuer = .controller)
    (hi : exec i s = engineOperation f w ca cb s) : EngineCompletes i f w ca cb s := by
  refine ⟨(engineStep f w ca cb s.ops.din s.S).1, ?next, ?returned, ?unused⟩
  case next =>
    rw [hi, engineOperation_of_controller f w ca cb hctl, ← engineStep_snd]
    rfl
  case returned => exact fun j hj => by rw [getLsbD_engineStep_fst, if_pos hj]
  case unused => exact fun j hj => by rw [getLsbD_engineStep_fst, if_neg (by omega)]

/-- Settles O21: each of the three is the engine operation of its width in the encrypt form. -/
theorem encryptFormOperationsComplete : Obligations.EncryptFormOperationsComplete := fun _ _ _ hctl =>
  ⟨engineCompletes hctl rfl, engineCompletes hctl rfl, engineCompletes hctl rfl⟩

/-- Settles O22: each of the three is the engine operation of its width in the decrypt form. -/
theorem decryptFormOperationsComplete : Obligations.DecryptFormOperationsComplete := fun _ _ _ hctl =>
  ⟨engineCompletes hctl rfl, engineCompletes hctl rfl, engineCompletes hctl rfl⟩

/-! ### A wide operation as four narrow ones -/

/-- The bits returned later in a run are those of the run that begins there (R91). -/
theorem bitReturned_add (f : Form) (ca cb : Bool) (b : Nat → Bool) (S : Lfsr) (m k : Nat) :
    bitReturned f ca cb b S (m + k) = bitReturned f ca cb (fun k => b (m + k)) (stateAfter f ca cb b S m) k := by
  rw [bitReturned, bitReturned, stateAfter_add]

/-- Bit `k` of the byte at bit `a` of a word is the word's bit `a + k` (R35). -/
theorem wordBit_byteAt (W : Word32) (a : Nat) {k : Nat} (hk : k < 8) :
    wordBit (BitVec.setWidth 32 (W.extractLsb' a 8)) k = wordBit W (a + k) := by
  have h32 : k < 32 := by omega
  simp [wordBit, hk, h32]

section
variable (f : Form) (ca cb : Bool) (W : Word32) (S : Lfsr) (a : Nat)

/-- An 8-bit operation on the byte at bit `a`, in the state the bits below `a` leave. -/
def byteStep : Word32 × Lfsr :=
  engineStep f .bits8 ca cb (BitVec.setWidth 32 (W.extractLsb' a 8)) (stateAfter f ca cb (wordBit W) S a)

/-- It leaves the state that eight more bits of the word leave. -/
theorem byteStep_snd : (byteStep f ca cb W S a).2 = stateAfter f ca cb (wordBit W) S (a + 8) := by
  rw [byteStep, engineStep_snd, stateAfter_add]
  exact stateAfter_congr fun k hk => wordBit_byteAt W a hk

/-- Moved up to its byte's place, it returns what the whole word returns there, and 0 elsewhere. -/
theorem getLsbD_byteStep_fst {j : Nat} (hj : j < 32) : ((byteStep f ca cb W S a).1 <<< a).getLsbD j =
    if a ≤ j ∧ j < a + 8 then bitReturned f ca cb (wordBit W) S j else false := by
  rw [BitVec.getLsbD_shiftLeft, byteStep, getLsbD_engineStep_fst]
  by_cases hin : a ≤ j ∧ j < a + 8
  · obtain ⟨k, rfl⟩ : ∃ k, j = a + k := ⟨j - a, by omega⟩
    have hk : k < 8 := by omega
    have hbyte : bitReturned f ca cb (wordBit (BitVec.setWidth 32 (W.extractLsb' a 8)))
        (stateAfter f ca cb (wordBit W) S a) k = bitReturned f ca cb (wordBit W) S (a + k) := by
      rw [bitReturned_add]
      exact bitReturned_congr fun i hi => wordBit_byteAt W a (by omega)
    simp [hj, hk, widthBits, hbyte]
  · have hout : j < a ∨ ¬ j - a < 8 := by omega
    rcases hout with h | h
    · simp [h, hin]
    · simp [widthBits, h, hin]

end

/-- Settles O24: each narrow operation begins in the state the bytes before its own leave, and returns what the wide one
returns at its byte's place. -/
theorem wideOperationIsFourNarrowOnes : Obligations.WideOperationIsFourNarrowOnes := by
  intro f ca cb W S r0 r1 r2 r3
  have h0 : r0 = byteStep f ca cb W S 0 := rfl
  have h1 : r1 = byteStep f ca cb W S 8 := by rw [byteStep, ← byteStep_snd f ca cb W S 0]; rfl
  have h2 : r2 = byteStep f ca cb W S 16 := by rw [byteStep, ← byteStep_snd f ca cb W S 8, ← h1]
  have h3 : r3 = byteStep f ca cb W S 24 := by rw [byteStep, ← byteStep_snd f ca cb W S 16, ← h2]
  refine Prod.ext (BitVec.eq_of_getLsbD_eq fun j hj => ?word) ?state
  case word =>
    have hlow : (byteStep f ca cb W S 0).1.getLsbD j =
        if 0 ≤ j ∧ j < 8 then bitReturned f ca cb (wordBit W) S j else false := by
      simpa using getLsbD_byteStep_fst f ca cb W S 0 hj
    simp only [h0, h1, h2, h3, BitVec.getLsbD_or, hlow, getLsbD_byteStep_fst f ca cb W S _ hj, getLsbD_engineStep_fst,
      widthBits]
    have hplace : j < 8 ∨ 8 ≤ j ∧ j < 16 ∨ 16 ≤ j ∧ j < 24 ∨ 24 ≤ j ∧ j < 32 := by omega
    grind
  case state => rw [h3, byteStep_snd, engineStep_snd]; rfl

end Sys2Proof.Machine
end

section
/-!
PROOFS. The word-parallel form (R92). A bit of `S` keeps its place in one long stream of bits while the register moves along
it, so a run of `n` steps is a fixed stream whose tap targets are overwritten in place; up to 32 steps no tap reads an
overwritten bit, and every step can be computed from the register it started with.
-/

namespace Sys2Proof.Machine

/-! ### What the network of a step reads -/

/-- The indices a step's keystream and feedback bits depend on, through the tap XORs (R73, R74, R80). -/
def readIndices : List Nat := [0, 12, 23, 61, 66, 107, 111, 154, 160, 193, 196, 230, 235, 244]

/-- Both registers have the same bits where the network of a step reads. -/
def AgreeOnReads (S T : Lfsr) : Prop := ∀ r ∈ readIndices, rbit S r = rbit T r

/-- Equal reads give an equal network after the tap XORs. -/
theorem AgreeOnReads.ksg128_tapXors_eq {S T : Lfsr} (h : AgreeOnReads S T) :
    ksg128 (tapXors S) = ksg128 (tapXors T) := by
  simp only [AgreeOnReads, readIndices, List.forall_mem_cons] at h
  simp [ksg128, rbit_tapXors, tapXorBit, h]

theorem AgreeOnReads.stepForm_fst_eq {S T : Lfsr} (h : AgreeOnReads S T) (f : Form) (b ca cb : Bool) :
    (stepForm f b ca cb S).1 = (stepForm f b ca cb T).1 := by
  cases f <;> simp [stepForm, stepBit_eq, stepBitD_eq, h.ksg128_tapXors_eq]

theorem AgreeOnReads.bitShiftedIn_eq {S T : Lfsr} (h : AgreeOnReads S T) (f : Form) (b ca cb : Bool) :
    bitShiftedIn f b ca cb S = bitShiftedIn f b ca cb T := by
  have hks := h.ksg128_tapXors_eq
  simp only [AgreeOnReads, readIndices, List.forall_mem_cons] at h
  simp [bitShiftedIn, hks, fbk128, rbit_tapXors, tapXorBit, h]

/-! ### The stream of bits the register moves along -/

/-- The six tap XORs of a step: each target and the two other bits XORed into it (R80). -/
def tapRules : List (Nat × Nat × Nat) :=
  [(289, 235, 230), (230, 196, 193), (193, 160, 154), (154, 111, 107), (107, 66, 61), (61, 23, 0)]

/-- Each rule is one of the assignments of R80. -/
theorem tapXorBit_of_rule (S : Lfsr) :
    ∀ r ∈ tapRules, tapXorBit S r.1 = (rbit S r.1 ^^ rbit S r.2.1 ^^ rbit S r.2.2) := by
  simp only [tapRules, List.forall_mem_cons]
  exact ⟨rfl, rfl, rfl, rfl, rfl, rfl, by simp⟩

/-- There is no other assignment. -/
theorem tapXorBit_of_no_rule (S : Lfsr) {i : Nat} (h : ∀ r ∈ tapRules, i ≠ r.1) : tapXorBit S i = rbit S i := by
  simp only [tapRules, List.forall_mem_cons] at h
  simp [tapXorBit, h]

/-- What the tap XOR of step `m` writes, when it reads the bits `x` of the stream. -/
def streamTap (x : Nat → Bool) (t a b m : Nat) : Bool := x (t + m) ^^ x (a + m) ^^ x (b + m)

/-- The stream `x` after the tap XORs of `k` steps, in which each target `t` has moved over the bits `t` to `t + k - 1`. -/
def tapped (x : Nat → Bool) (k j : Nat) : Bool :=
  if 289 ≤ j ∧ j < 289 + k then streamTap x 289 235 230 (j - 289)
  else if 230 ≤ j ∧ j < 230 + k then streamTap x 230 196 193 (j - 230)
  else if 193 ≤ j ∧ j < 193 + k then streamTap x 193 160 154 (j - 193)
  else if 154 ≤ j ∧ j < 154 + k then streamTap x 154 111 107 (j - 154)
  else if 107 ≤ j ∧ j < 107 + k then streamTap x 107 66 61 (j - 107)
  else if 61 ≤ j ∧ j < 61 + k then streamTap x 61 23 0 (j - 61)
  else x j

/-- A bit that no target has moved over. -/
theorem tapped_of_clear (x : Nat → Bool) {k j : Nat} (h : ∀ r ∈ tapRules, ¬(r.1 ≤ j ∧ j < r.1 + k)) :
    tapped x k j = x j := by
  simp only [tapRules, List.forall_mem_cons] at h
  simp only [tapped, h, if_false]

/-- Step `k` writes the bit `k` above each target, and no target's 32 bits meet another's. -/
theorem tapped_succ_of_rule (x : Nat → Bool) {k : Nat} (hk : k < 32) :
    ∀ r ∈ tapRules, tapped x (k + 1) (r.1 + k) = streamTap x r.1 r.2.1 r.2.2 k := by
  simp only [tapRules, List.forall_mem_cons]
  refine ⟨?_, ?_, ?_, ?_, ?_, ?_, by simp⟩ <;> grind [tapped]

/-- Step `k` writes no other bit. -/
theorem tapped_succ_of_no_rule (x : Nat → Bool) (k : Nat) {i : Nat} (h : ∀ r ∈ tapRules, i ≠ r.1) :
    tapped x (k + 1) (i + k) = tapped x k (i + k) := by
  have hsame {t : Nat} (ht : i ≠ t) : (t ≤ i + k ∧ i + k < t + (k + 1)) = (t ≤ i + k ∧ i + k < t + k) :=
    propext (by omega)
  simp only [tapRules, List.forall_mem_cons] at h
  simp only [tapped, hsame, h, ne_eq, not_false_eq_true]

/-- Every index read is a target, or above it, or too far below it to meet a bit written in 32 steps (R92). -/
theorem reads_clear_of_targets : ∀ i ∈ 289 :: readIndices, ∀ r ∈ tapRules, r.1 ≤ i ∨ i + 32 ≤ r.1 := by
  decide

/-- Within 32 steps each read finds the bit of the stream as it was. -/
theorem tapped_at_read (x : Nat → Bool) {k i : Nat} (hk : k < 32) (hi : i ∈ 289 :: readIndices) :
    tapped x k (i + k) = x (i + k) :=
  tapped_of_clear x fun r hr => by
    rcases reads_clear_of_targets i hi r hr with h | h <;> omega

/-- The tap XORs read where the network of a step reads, and their topmost target. -/
theorem rule_reads : ∀ r ∈ tapRules,
    r.1 ∈ 289 :: readIndices ∧ r.2.1 ∈ 289 :: readIndices ∧ r.2.2 ∈ 289 :: readIndices := by
  decide

theorem readIndices_lt : ∀ i ∈ 289 :: readIndices, i < 293 := by
  decide

/-- The register at position `k` of the stream, after `k` steps. -/
def AtStream (x : Nat → Bool) (k : Nat) (S : Lfsr) : Prop := ∀ i, i < 293 → rbit S i = tapped x k (i + k)

theorem AtStream.rbit_at_read {x : Nat → Bool} {k : Nat} {S : Lfsr} (h : AtStream x k S) (hk : k < 32) {i : Nat}
    (hi : i ∈ 289 :: readIndices) : rbit S i = x (i + k) := by
  rw [h i (readIndices_lt i hi), tapped_at_read x hk hi]

/-- The tap XORs of the next step, on the stream. -/
theorem AtStream.rbit_tapXors {x : Nat → Bool} {k : Nat} {S : Lfsr} (h : AtStream x k S) (hk : k < 32) {i : Nat}
    (hi : i < 293) : rbit (tapXors S) i = tapped x (k + 1) (i + k) := by
  rw [Machine.rbit_tapXors]
  by_cases hrule : ∃ r ∈ tapRules, i = r.1
  · obtain ⟨r, hr, rfl⟩ := hrule
    obtain ⟨ht, ha, hb⟩ := rule_reads r hr
    rw [tapXorBit_of_rule S r hr, tapped_succ_of_rule x hk r hr, h.rbit_at_read hk ht, h.rbit_at_read hk ha,
      h.rbit_at_read hk hb, streamTap]
  · have hno : ∀ r ∈ tapRules, i ≠ r.1 := fun r hr he => hrule ⟨r, hr, he⟩
    rw [tapXorBit_of_no_rule S hno, tapped_succ_of_no_rule x k hno, h i hi]

/-- A step moves on by one along the stream, when it shifts in the stream's next bit. -/
theorem AtStream.shiftIn {x : Nat → Bool} {k : Nat} {S : Lfsr} (h : AtStream x k S) (hk : k < 32) :
    AtStream x (k + 1) (shiftIn (tapXors S) (x (293 + k))) := by
  intro i hi
  rw [rbit_shiftIn _ _ _ hi]
  split
  · next hnewest =>
    have hclear : tapped x (k + 1) (i + (k + 1)) = x (i + (k + 1)) := tapped_of_clear x fun r hr => by
      have htop : r.1 ≤ 289 := by revert r; decide
      omega
    rw [hclear, hnewest]
    congr 1
    omega
  · next hold => rw [h.rbit_tapXors hk (by omega), Nat.add_assoc, Nat.add_comm 1]

/-! ### The iterated step on its stream -/

/-- The register moved down by `k` positions, with nothing written to it. -/
theorem rbit_ushiftRight (S : Lfsr) (k i : Nat) : rbit (S >>> k) i = rbit S (i + k) := by
  rw [rbit_eq, BitVec.getLsbD_ushiftRight, Nat.add_comm, rbit_eq]

/-- The stream of a run: the register, and above it the bits shifted in, each computed from the first register. -/
def runStream (f : Form) (ca cb : Bool) (b : Nat → Bool) (S : Lfsr) (j : Nat) : Bool :=
  if j < 293 then rbit S j else bitShiftedIn f (b (j - 293)) ca cb (S >>> (j - 293))

section
variable (f : Form) (ca cb : Bool) (b : Nat → Bool) (S : Lfsr)

theorem runStream_of_lt {j : Nat} (hj : j < 293) : runStream f ca cb b S j = rbit S j := by
  rw [runStream, if_pos hj]

theorem runStream_shiftedIn (k : Nat) : runStream f ca cb b S (293 + k) = bitShiftedIn f (b k) ca cb (S >>> k) := by
  simp [runStream]

/-- At position `k` of its stream a register reads what the first register has `k` bits up. -/
theorem agreeOnReads_of_atStream {k : Nat} {T : Lfsr} (hk : k < 32) (h : AtStream (runStream f ca cb b S) k T) :
    AgreeOnReads T (S >>> k) := by
  intro i hi
  have hlow : i ≤ 244 := by revert i; decide
  rw [h.rbit_at_read hk (.tail _ hi), rbit_ushiftRight, runStream_of_lt _ _ _ _ _ (by omega)]

/-- The run follows its stream for 32 steps (R92). -/
theorem stateAfter_atStream {k : Nat} (hk : k ≤ 32) : AtStream (runStream f ca cb b S) k (stateAfter f ca cb b S k) := by
  induction k with
  | zero =>
    intro i hi
    have hclear : tapped (runStream f ca cb b S) 0 i = runStream f ca cb b S i :=
      tapped_of_clear _ fun r _ => by omega
    rw [Nat.add_zero, hclear, runStream_of_lt _ _ _ _ _ hi, stateAfter]
  | succ k ih =>
    have hat := ih (by omega)
    have hreads := agreeOnReads_of_atStream f ca cb b S hk hat
    rw [stateAfter, stepForm_snd_eq, hreads.bitShiftedIn_eq, ← runStream_shiftedIn]
    exact hat.shiftIn hk

/-- Each step of a run of at most 32 returns what the step on the first register, moved down to it, returns (R92). -/
theorem bitReturned_eq_stepForm {k : Nat} (hk : k < 32) :
    bitReturned f ca cb b S k = (stepForm f (b k) ca cb (S >>> k)).1 :=
  (agreeOnReads_of_atStream f ca cb b S hk (stateAfter_atStream f ca cb b S hk.le)).stepForm_fst_eq f _ ca cb

end

/-! ### The keystream of one operation -/

/-- Two lists of one length are equal when their elements are, index by index. -/
theorem bits_ext {p q : List Bool} (hlen : p.length = q.length)
    (h : ∀ k, k < q.length → p.getD k false = q.getD k false) : p = q := by
  refine List.ext_getElem hlen fun k hp hq => ?_
  simpa [List.getD_eq_getElem?_getD, hp, hq] using h k hq

/-- Step `k` of the encrypt form returns the keystream bit of the first register moved down by `k`, whatever it absorbs. -/
theorem stepBits_encrypt_getD (ca cb : Bool) (q : List Bool) (S : Lfsr) {k : Nat} (hk : k < q.length)
    (h32 : q.length ≤ 32) : (stepBits .encrypt ca cb q S).1.getD k false = ksg128 (tapXors (S >>> k)) := by
  rw [stepBits_bit _ _ _ _ _ _ hk, bitReturned_eq_stepForm _ _ _ _ _ (by omega)]
  rfl

/-- Settles O26: bit by bit, what is returned is computed from the first register alone. -/
theorem keystreamOfOneOperationDependsOnSAlone : Obligations.KeystreamOfOneOperationDependsOnSAlone := by
  intro p q ca cb ca' cb' S hlen h32
  refine bits_ext (by simpa using hlen) fun k hk => ?_
  rw [stepBits_length] at hk
  rw [stepBits_encrypt_getD ca cb p S (by omega) (by omega), stepBits_encrypt_getD ca' cb' q S hk h32]

/-! ### The word-parallel form, lane by lane -/

theorem getLsbD_broadcast {n k : Nat} (v : Bool) (hk : k < n) : (broadcast n v).getLsbD k = v := by
  cases v <;> simp [broadcast, hk]

/-- The lanes of `v` replace bits `a` to `a + n - 1`. -/
theorem getLsbD_writeLanes {m n a : Nat} (x : BitVec m) (v : BitVec n) (h : a + n ≤ m) (j : Nat) :
    (writeLanes x a v).getLsbD j = if a ≤ j ∧ j < a + n then v.getLsbD (j - a) else x.getLsbD j := by
  split
  · next hin =>
    have hj : j < m := by omega
    have hlane : j - a < n := by omega
    have hlow : ¬j < a := by omega
    simp [writeLanes, hj, hlane, hlow]
  · next hout =>
    rcases (by omega : j < a ∨ n ≤ j - a) with hlow | hhigh
    · simpa [writeLanes, hlow] using BitVec.lt_of_getLsbD
    · simpa [writeLanes, hhigh] using BitVec.lt_of_getLsbD

section
variable (f : Form) (n : Nat) (ca cb : Bool) (din : BitVec n) (S : Lfsr) (t a b : Nat)

/-- A tap XOR of `n` steps on lanes, read from the register alone (R92). -/
def laneTap : BitVec n := S.extractLsb' t n ^^^ S.extractLsb' a n ^^^ S.extractLsb' b n

/-- The keystream lanes of R92. -/
def bulkKs : BitVec n :=
  S.extractLsb' 12 n ^^^ laneTap n S 154 111 107 ^^^
    majLanes (S.extractLsb' 235 n) (laneTap n S 61 23 0) (laneTap n S 193 160 154) ^^^
    chLanes (laneTap n S 230 196 193) (S.extractLsb' 111 n) (S.extractLsb' 66 n)

/-- The feedback lanes of R92. -/
def bulkFb : BitVec n :=
  S.extractLsb' 0 n ^^^ ~~~laneTap n S 107 66 61 ^^^
    majLanes (S.extractLsb' 244 n) (S.extractLsb' 23 n) (S.extractLsb' 160 n) ^^^
    (broadcast n ca &&& S.extractLsb' 196 n) ^^^ (broadcast n cb &&& bulkKs n S)

/-- The lanes of message bits, those the decrypt form recovers among them. -/
def bulkMessage : BitVec n :=
  match f with
  | .encrypt => din
  | .decrypt => bulkKs n S ^^^ din

/-- The register with the bits shifted in above it. -/
def bulkStream : BitVec (n + 293) := (bulkFb n ca cb S ^^^ bulkMessage f n din S) ++ S

theorem bulkStep_fst_eq : (bulkStep f n ca cb din S).1 =
    match f with
    | .encrypt => bulkKs n S
    | .decrypt => bulkKs n S ^^^ din := by
  cases f <;> rfl

/-- The lanes of the topmost tap XOR, the only one whose target reaches the bits shifted in. -/
def topTap : BitVec n :=
  (bulkStream f n ca cb din S).extractLsb' 289 n ^^^ S.extractLsb' 235 n ^^^ S.extractLsb' 230 n

theorem bulkStep_snd_eq : (bulkStep f n ca cb din S).2 =
    (writeLanes (writeLanes (writeLanes (writeLanes (writeLanes (writeLanes (bulkStream f n ca cb din S)
      61 (laneTap n S 61 23 0)) 107 (laneTap n S 107 66 61)) 154 (laneTap n S 154 111 107))
      193 (laneTap n S 193 160 154)) 230 (laneTap n S 230 196 193))
      289 (topTap f n ca cb din S)).extractLsb' n 293 := by
  cases f <;> rfl

section
variable {k : Nat} (hk : k < n)
include hk

theorem getLsbD_laneTap : (laneTap n S t a b).getLsbD k = (rbit S (t + k) ^^ rbit S (a + k) ^^ rbit S (b + k)) := by
  simp only [laneTap, BitVec.getLsbD_xor, getLsbD_segment _ _ hk]

/-- Lane `k` of the keystream is the keystream bit of a step on the register moved down by `k`. -/
theorem getLsbD_bulkKs : (bulkKs n S).getLsbD k = ksg128 (tapXors (S >>> k)) := by
  simp [bulkKs, ksg128, getLsbD_majLanes, getLsbD_chLanes _ _ _ hk, getLsbD_laneTap _ _ _ _ _ hk,
    getLsbD_segment _ _ hk, rbit_tapXors, tapXorBit, rbit_ushiftRight, -BitVec.getLsbD_eq_getElem]

/-- Lane `k` of the feedback is the feedback bit of that step. -/
theorem getLsbD_bulkFb : (bulkFb n ca cb S).getLsbD k =
    fbk128 (tapXors (S >>> k)) ca cb (ksg128 (tapXors (S >>> k))) := by
  simp [bulkFb, fbk128, getLsbD_majLanes, getLsbD_broadcast _ hk, getLsbD_laneTap _ _ _ _ _ hk,
    getLsbD_segment _ _ hk, getLsbD_bulkKs _ _ hk, rbit_tapXors, tapXorBit, rbit_ushiftRight, hk,
    -BitVec.getLsbD_eq_getElem]

/-- Lane `k` of the result is what that step returns. -/
theorem getLsbD_bulkStep_fst : (bulkStep f n ca cb din S).1.getLsbD k =
    (stepForm f (din.getLsbD k) ca cb (S >>> k)).1 := by
  rw [bulkStep_fst_eq]
  cases f with
  | encrypt => exact getLsbD_bulkKs n S hk
  | decrypt =>
    rw [BitVec.getLsbD_xor, getLsbD_bulkKs n S hk]
    rfl

/-- Lane `k` of the bits shifted in is the bit that step shifts in. -/
theorem getLsbD_bulkShiftedIn : (bulkFb n ca cb S ^^^ bulkMessage f n din S).getLsbD k =
    bitShiftedIn f (din.getLsbD k) ca cb (S >>> k) := by
  rw [BitVec.getLsbD_xor, getLsbD_bulkFb n ca cb S hk]
  cases f with
  | encrypt => rfl
  | decrypt =>
    rw [bulkMessage, BitVec.getLsbD_xor, getLsbD_bulkKs n S hk]
    rfl

end

theorem getLsbD_bulkStream {j : Nat} (hj : j < 293 + n) :
    (bulkStream f n ca cb din S).getLsbD j = runStream f ca cb din.getLsbD S j := by
  rw [bulkStream, BitVec.getLsbD_append, runStream]
  split
  · rfl
  · exact getLsbD_bulkShiftedIn f n ca cb din S (by omega)

/-- A tap XOR that stays below the bits shifted in is the same on lanes and on the stream. -/
theorem getLsbD_laneTap_eq_streamTap (h32 : n ≤ 32) (hlow : t ≤ 244 ∧ a ≤ 244 ∧ b ≤ 244) {k : Nat} (hk : k < n)
    (c : Nat → Bool) : (laneTap n S t a b).getLsbD k = streamTap (runStream f ca cb c S) t a b k := by
  obtain ⟨ht, ha, hb⟩ := hlow
  rw [getLsbD_laneTap n S t a b hk, streamTap, runStream_of_lt _ _ _ _ _ (by omega : t + k < 293),
    runStream_of_lt _ _ _ _ _ (by omega : a + k < 293), runStream_of_lt _ _ _ _ _ (by omega : b + k < 293)]

theorem getLsbD_topTap_eq_streamTap (h32 : n ≤ 32) {k : Nat} (hk : k < n) : (topTap f n ca cb din S).getLsbD k =
    streamTap (runStream f ca cb din.getLsbD S) 289 235 230 k := by
  rw [streamTap, runStream_of_lt _ _ _ _ _ (by omega : 235 + k < 293),
    runStream_of_lt _ _ _ _ _ (by omega : 230 + k < 293), ← getLsbD_bulkStream f n ca cb din S (by omega)]
  simp only [topTap, BitVec.getLsbD_xor, getLsbD_segment _ _ hk, BitVec.getLsbD_extractLsb', hk, decide_true,
    Bool.true_and]

/-- The word-parallel form leaves the window of its stream that begins at bit `n`, after the tap XORs of `n` steps. -/
theorem bulkStep_atStream (h32 : n ≤ 32) : AtStream (runStream f ca cb din.getLsbD S) n (bulkStep f n ca cb din S).2 := by
  intro i hi
  have hlow {t a b j : Nat} (hle : t ≤ 244 ∧ a ≤ 244 ∧ b ≤ 244) (hj : t ≤ j ∧ j < t + n) :
      (laneTap n S t a b).getLsbD (j - t) = streamTap (runStream f ca cb din.getLsbD S) t a b (j - t) :=
    getLsbD_laneTap_eq_streamTap f n ca cb S t a b h32 hle (by omega) _
  rw [bulkStep_snd_eq, rbit_eq, BitVec.getLsbD_extractLsb', decide_eq_true hi, Bool.true_and, Nat.add_comm n i]
  iterate 6 rw [getLsbD_writeLanes _ _ (by omega)]
  exact
    ite_congr rfl (fun _ => getLsbD_topTap_eq_streamTap f n ca cb din S h32 (by omega)) fun _ =>
    ite_congr rfl (hlow (by decide)) fun _ =>
    ite_congr rfl (hlow (by decide)) fun _ =>
    ite_congr rfl (hlow (by decide)) fun _ =>
    ite_congr rfl (hlow (by decide)) fun _ =>
    ite_congr rfl (hlow (by decide)) fun _ =>
    getLsbD_bulkStream f n ca cb din S (by omega)

end

/-- A register is fixed by its stream and its position on it. -/
theorem AtStream.unique {x : Nat → Bool} {k : Nat} {S T : Lfsr} (hS : AtStream x k S) (hT : AtStream x k T) : S = T :=
  lfsr_ext fun i hi => (hS i hi).trans (hT i hi).symm

/-- Settles O25: lane by lane the word-parallel form returns what the steps return, and both leave the register at the same
position of the same stream. -/
theorem wordParallelFormEqualsIteratedStep : Obligations.WordParallelFormEqualsIteratedStep := by
  intro f n ca cb q S _ h32 hlen p r
  have hbits {k : Nat} (hk : k < n) : (bitsWord .lsbFirst n q).getLsbD k = q.getD k false := getLsbD_bitsWord q hk
  constructor
  · refine bits_ext (by simp [r, hlen]) fun k hk => ?_
    have hk : k < n := by simpa [r, hlen] using hk
    rw [wordBits_getD _ hk, stepBits_bit _ _ _ _ _ _ (by omega), getLsbD_bulkStep_fst _ _ _ _ _ _ hk, hbits hk,
      bitReturned_eq_stepForm _ _ _ _ _ (by omega)]
  · have hstate : r.2 = stateAfter f ca cb (bitsWord .lsbFirst n q).getLsbD S n := by
      rw [stepBits_state, hlen]
      exact stateAfter_congr fun k hk => (hbits hk).symm
    rw [hstate]
    exact (bulkStep_atStream f n ca cb _ S h32).unique (stateAfter_atStream f ca cb _ S h32)

end Sys2Proof.Machine
end

section
/-!
PROOFS. The phase controller (`42_phases.md`): what `INIT`, `AD`, `PT`, `CT` and `FIN` leave and return, by index (R101 to
R107), and how they are refused (R142 to R144).
-/

namespace Sys2Proof.Machine

/-! ### A command admitted in one phase -/

theorem hostCommand_inPhase {p : Phase} {done s : State} (he : s.err = false) (hp : s.ph = p) :
    hostCommand (s.ph == p) true done s = .next done := by
  rw [hp, beq_self_eq_true]
  exact hostCommand_done he

theorem hostCommand_outOfPhase {p : Phase} {lengthsOk : Bool} {done s : State} (he : s.err = false) (hp : s.ph ≠ p) :
    hostCommand (s.ph == p) lengthsOk done s = .next (s.raise .sequence) := by
  rw [beq_false_of_ne hp]
  exact hostCommand_notAdmitted he

/-- `INIT` is admitted in any phase (R101). -/
theorem exec_init {s : State} (he : s.err = false) (hK : s.ops.key.length = 16) (hN : s.ops.nonce.length = 16) :
    exec .init s = .next { s with
      S := initS .lsbFirst s.ops.key s.ops.nonce, tag := 0#128, ok := false, dir := .enc, ph := .keyed } := by
  have hlengths : initLengthsOk s.ops = true := (initLengthsOk_iff s.ops).mpr ⟨hK, hN⟩
  rw [exec, execInit, hlengths]
  exact hostCommand_done he

theorem exec_ad {s : State} (he : s.err = false) (hp : s.ph = .keyed) :
    exec .ad s = .next { s with S := adS .lsbFirst s.ops.adata s.S, ph := .adDone } :=
  hostCommand_inPhase he hp

theorem exec_pt {s : State} (he : s.err = false) (hp : s.ph = .adDone) :
    exec .pt s = .next { s with
      S := (ptText .lsbFirst s.ops.textIn s.S).2, dir := .enc, ph := .textDone,
      results := s.results ++ [.textOut (ptText .lsbFirst s.ops.textIn s.S).1] } :=
  hostCommand_inPhase he hp

theorem exec_ct {s : State} (he : s.err = false) (hp : s.ph = .adDone) :
    exec .ct s = .next { s with
      S := (ctText .lsbFirst s.ops.textIn s.S).2, dir := .dec, ph := .textDone,
      results := s.results ++ [.textOut (ctText .lsbFirst s.ops.textIn s.S).1] } :=
  hostCommand_inPhase he hp

theorem exec_fin {s : State} (he : s.err = false) (hp : s.ph = .textDone) :
    exec .fin s = .next { s with
      S := 0#293, tag := tagOfBytes (finTag .lsbFirst s.S), ph := .tagged,
      results := s.results ++ finResult s.dir (finTag .lsbFirst s.S) } :=
  hostCommand_inPhase he hp

/-- Settles O56: each register the two states differ in is written, and none is read (R101). -/
theorem initForgetsTheOldMessage : Obligations.InitForgetsTheOldMessage := by
  intro s S tag ok ph dir he hsized
  obtain ⟨hK, hN⟩ := hsized.1 rfl
  rw [exec_init he hK hN]
  exact exec_init (s := { s with S := S, tag := tag, ok := ok, ph := ph, dir := dir }) he hK hN

/-! ### Byte sequences by bit -/

theorem byteBit_append (X Y : List Byte) (k : Nat) :
    byteBit (X ++ Y) k = if k < 8 * X.length then byteBit X k else byteBit Y (k - 8 * X.length) := by
  unfold byteBit
  split
  · next hk => rw [List.getD_append _ _ _ _ (by omega)]
  · next hk =>
    have hdiv : k / 8 - X.length = (k - 8 * X.length) / 8 := by omega
    have hmod : k % 8 = (k - 8 * X.length) % 8 := by omega
    rw [List.getD_append_right _ _ _ _ (by omega), hdiv, hmod]

/-- Bit `k` of packed bits is bit `k` of them (R34). -/
theorem byteBit_packBytes {n k : Nat} {q : List Bool} (hlen : q.length = 8 * n) (hk : k < 8 * n) :
    byteBit (packBytes .lsbFirst q) k = q.getD k false := by
  have hbytes : (packBytes .lsbFirst q).length = n := packBytes_length .lsbFirst n q hlen
  rw [← bitsOfBytes_getD _ k (by omega), bitsOfBytes_packBytes .lsbFirst n q hlen]

/-- `S` after the bits of a byte sequence, by index (R34, R91). -/
theorem stepBits_bytes_state (f : Form) (ca cb : Bool) (X : List Byte) (S : Lfsr) :
    (stepBits f ca cb (bitsOfBytes .lsbFirst X) S).2 = stateAfter f ca cb (byteBit X) S (8 * X.length) := by
  rw [stepBits_state, bitsOfBytes_length]
  exact stateAfter_congr fun k hk => bitsOfBytes_getD X k hk

/-- What each of these steps returns (R84). -/
theorem stepBits_bytes_bit (f : Form) (ca cb : Bool) (X : List Byte) (S : Lfsr) {k : Nat} (hk : k < 8 * X.length) :
    (stepBits f ca cb (bitsOfBytes .lsbFirst X) S).1.getD k false = bitReturned f ca cb (byteBit X) S k := by
  rw [stepBits_bit _ _ _ _ _ _ (by simpa using hk)]
  exact bitReturned_congr fun j hj => bitsOfBytes_getD X j (by omega)

/-! ### `INIT` -/

/-- The initialization sequence, by index (R102). -/
theorem qInit_getD {K N : List Byte} (hK : K.length = 16) (hN : N.length = 16) {i : Nat} (hi : i < 1792) :
    (qInit .lsbFirst K N).getD i false = initBit K N i := by
  have hk : (bitsOfBytes .lsbFirst K).length = 128 := by simp [hK]
  have hn : (bitsOfBytes .lsbFirst N).length = 128 := by simp [hN]
  have hkey (j : Nat) (hj : j < 128) : (bitsOfBytes .lsbFirst K)[j]?.getD false = byteBit K j := by
    rw [← List.getD_eq_getElem?_getD, bitsOfBytes_getD K j (by omega)]
  have hnonce (j : Nat) (hj : j < 128) : (bitsOfBytes .lsbFirst N)[j]?.getD false = byteBit N j := by
    rw [← List.getD_eq_getElem?_getD, bitsOfBytes_getD N j (by omega)]
  simp only [qInit, List.append_assoc, List.getD_eq_getElem?_getD, List.getElem?_append, hk, hn, initBit]
  by_cases h128 : i < 128
  · rw [if_pos h128, if_pos h128, hkey i h128]
  rw [if_neg h128, if_neg h128]
  by_cases h256 : i < 256
  · rw [if_pos (by omega), if_pos h256, hnonce _ (by omega)]
  rw [if_neg (by omega), if_neg h256]
  by_cases hfirst : i = 256
  · subst hfirst
    simp [hkey]
  · have hcyclic : i - 128 - 128 - 1 < 1535 := by omega
    have hsucc : i - 128 - 128 - 1 + 1 = i - 256 := by omega
    rw [if_neg (by simp; omega), if_neg hfirst]
    simp [hcyclic, hsucc, hkey _ (Nat.mod_lt _ _)]

theorem initS_eq_stateAfter {K N : List Byte} (hK : K.length = 16) (hN : N.length = 16) :
    initS .lsbFirst K N = stateAfter .encrypt true true (initBit K N) 0#293 1792 := by
  have hlen : (qInit .lsbFirst K N).length = 1792 := by rw [qInit_length, hK, hN]
  rw [initS, absorb_state, hlen]
  exact stateAfter_congr fun i hi => qInit_getD hK hN hi

/-- Settles O28: the sequence `INIT` absorbs is that of R102 bit by bit. -/
theorem initCompletes : Obligations.InitCompletes := by
  refine ⟨fun s he hK hN => ?absorbed, fun s he hlen => ?length, fun s he => hostCommand_faulted he⟩
  case absorbed => rw [exec_init he hK hN, initS_eq_stateAfter hK hN]
  case length =>
    have hlengths : initLengthsOk s.ops = false := by
      rw [Bool.eq_false_iff, ne_eq, initLengthsOk_iff]
      tauto
    rw [exec, execInit, hlengths]
    exact hostCommand_badLength he

/-! ### `AD`, `PT` and `CT` -/

/-- Settles O29: the bits of the associated data and the trailer, by index. -/
theorem adCompletes : Obligations.AdCompletes := by
  refine ⟨fun s he hp => ?absorbed, fun s he hp => hostCommand_outOfPhase he hp, fun s he => hostCommand_faulted he⟩
  rw [exec_ad he hp, adS, trailer_state, absorb, stepBits_bytes_state]

theorem ptText_snd (X : List Byte) (S : Lfsr) : (ptText .lsbFirst X S).2 =
    stateAfterTrailer false (stateAfter .encrypt true false (byteBit X) S (8 * X.length)) := by
  rw [ptText, trailer_state, stepBits_bytes_state]

theorem ctText_snd (X : List Byte) (S : Lfsr) : (ctText .lsbFirst X S).2 =
    stateAfterTrailer false (stateAfter .decrypt true false (byteBit X) S (8 * X.length)) := by
  rw [ctText, trailer_state, stepBits_bytes_state]

theorem byteBit_ptText (X : List Byte) (S : Lfsr) {k : Nat} (hk : k < 8 * X.length) :
    byteBit (ptText .lsbFirst X S).1 k = (byteBit X k ^^ bitReturned .encrypt true false (byteBit X) S k) := by
  rw [← bitsOfBytes_getD X k hk, ← stepBits_bytes_bit .encrypt true false X S hk, ptText,
    byteBit_packBytes (n := X.length) (by simp) hk]
  simp [List.getD_eq_getElem?_getD, hk]

theorem byteBit_ctText (X : List Byte) (S : Lfsr) {k : Nat} (hk : k < 8 * X.length) :
    byteBit (ctText .lsbFirst X S).1 k = bitReturned .decrypt true false (byteBit X) S k := by
  rw [ctText, byteBit_packBytes (n := X.length) (by simp) hk, stepBits_bytes_bit _ _ _ _ _ hk]

/-- Settles O30: the ciphertext is packed from the bits of the text XOR the bits returned (R104). -/
theorem ptCompletes : Obligations.PtCompletes := by
  refine ⟨fun s he hp => ⟨(ptText .lsbFirst s.ops.textIn s.S).1, ?next, ptText_length _ _ _, fun k => byteBit_ptText _ _⟩,
    fun s he hp => hostCommand_outOfPhase he hp, fun s he => hostCommand_faulted he⟩
  rw [exec_pt he hp, ptText_snd]

/-- Settles O31: the plaintext is packed from the bits the decrypt form returns (R105). -/
theorem ctCompletes : Obligations.CtCompletes := by
  refine ⟨fun s he hp => ⟨(ctText .lsbFirst s.ops.textIn s.S).1, ?next, ctText_length _ _ _, fun k => byteBit_ctText _ _⟩,
    fun s he hp => hostCommand_outOfPhase he hp, fun s he => hostCommand_faulted he⟩
  rw [exec_ct he hp, ctText_snd]

/-! ### `FIN` -/

theorem finTag_length (o : BitOrder) (S : Lfsr) : (finTag o S).length = 16 :=
  packBytes_length o 16 _ (by simp)

/-- The tag is the keystream of the last 128 of 768 steps (R106). -/
theorem byteBit_finTag (S : Lfsr) {k : Nat} (hk : k < 128) :
    byteBit (finTag .lsbFirst S) k = bitReturned .encrypt true true (fun _ => false) S (640 + k) := by
  rw [finTag, byteBit_packBytes (n := 16) (by simp) hk, stepBits_bit _ _ _ _ _ _ (by simpa using hk), absorb_state,
    bitReturned_add]
  simp only [zeros_getD, zeros_length]

theorem tagOfBytes_cons (B : Byte) (X : List Byte) :
    tagOfBytes (B :: X) = (tagOfBytes X <<< 8) ||| BitVec.setWidth 128 B := rfl

/-- A byte is read back from its own place in the tag register (R17). -/
theorem tagByte_tagOfBytes (X : List Byte) {i : Nat} (hi : i < 16) : tagByte (tagOfBytes X) i = X.getD i 0#8 := by
  induction X generalizing i with
  | nil => simp [tagOfBytes, tagByte]
  | cons B X ih =>
    refine BitVec.eq_of_getLsbD_eq fun j hj => ?_
    rw [tagByte, tagOfBytes_cons, BitVec.getLsbD_extractLsb', BitVec.getLsbD_or, BitVec.getLsbD_shiftLeft,
      BitVec.getLsbD_setWidth]
    have h128 : 8 * i + j < 128 := by omega
    cases i with
    | zero =>
      have hj128 : j < 128 := by omega
      simp [hj, hj128]
    | succ i =>
      have hplace : 8 * (i + 1) + j - 8 = 8 * i + j := by omega
      rw [List.getD_cons_succ, ← ih (by omega), hplace, BitVec.getLsbD_of_ge B _ (by omega)]
      have habove : 8 ≤ 8 * (i + 1) + j := by omega
      simp [tagByte, hj, h128, habove]

theorem tagBytes_tagOfBytes {X : List Byte} (hX : X.length = 16) : tagBytes (tagOfBytes X) = X := by
  refine List.ext_getElem (by simp [hX]) fun i hi _ => ?_
  rw [tagBytes_length] at hi
  simp [tagBytes, tagByte_tagOfBytes X hi, hX, hi]

/-- Settles O32: the tag's bytes are read back from the register, and their bits are keystream bits (R106). -/
theorem finCompletes : Obligations.FinCompletes := by
  refine ⟨fun s he hp => ⟨tagOfBytes (finTag .lsbFirst s.S), ?next, fun k hk => ?bits⟩,
    fun s he hp => hostCommand_outOfPhase he hp, fun s he => hostCommand_faulted he⟩
  case next =>
    rw [exec_fin he hp, tagBytes_tagOfBytes (finTag_length _ _)]
    cases s.dir <;> rfl
  case bits => rw [tagBytes_tagOfBytes (finTag_length _ _), byteBit_finTag _ hk]

end Sys2Proof.Machine
end

section
/-!
PROOFS. The controller's schedule (R109): every operand word it issues is cut from bytes, so each operation and each schedule
absorbs a byte sequence and returns the bytes the bit form returns for it (R91); what a message costs (R171).
-/

namespace Sys2Proof.Machine

/-! ### Absorbing whole bytes -/

/-- The bytes returned and the state left when the bits of whole bytes are absorbed (R34, R91). -/
def bytesRun (f : Form) (ca cb : Bool) (X : List Byte) (S : Lfsr) : List Byte × Lfsr :=
  (packBytes .lsbFirst (stepBits f ca cb (bitsOfBytes .lsbFirst X) S).1,
   (stepBits f ca cb (bitsOfBytes .lsbFirst X) S).2)

@[simp] theorem bytesRun_length (f : Form) (ca cb : Bool) (X : List Byte) (S : Lfsr) :
    (bytesRun f ca cb X S).1.length = X.length :=
  packBytes_length .lsbFirst X.length _ (by simp)

theorem bytesRun_append (f : Form) (ca cb : Bool) (X Y : List Byte) (S : Lfsr) :
    bytesRun f ca cb (X ++ Y) S =
      ((bytesRun f ca cb X S).1 ++ (bytesRun f ca cb Y (bytesRun f ca cb X S).2).1,
       (bytesRun f ca cb Y (bytesRun f ca cb X S).2).2) := by
  simp only [bytesRun, bitsOfBytes_append, stepBits_append]
  rw [packBytes_append .lsbFirst X.length _ _ (by simp)]

/-- Zero bits are the bits of zero bytes (R33). -/
theorem bitsOfBytes_replicate_zero (n : Nat) : bitsOfBytes .lsbFirst (List.replicate n 0#8) = zeros (8 * n) := by
  induction n with
  | zero => rfl
  | succ n ih =>
    have hbyte : bitsOf .lsbFirst 0#8 = zeros 8 := by decide
    rw [List.replicate_succ, bitsOfBytes_cons, ih, hbyte, zeros, zeros, zeros, ← List.replicate_add]
    congr 1
    omega

/-- XOR of byte sequences is XOR of their bits (R34). -/
theorem bitsOfBytes_zipWith_xor (o : BitOrder) (X Y : List Byte) :
    bitsOfBytes o (List.zipWith (fun x y => x ^^^ y) X Y) =
      List.zipWith (fun x y => x ^^ y) (bitsOfBytes o X) (bitsOfBytes o Y) := by
  induction X generalizing Y with
  | nil => simp
  | cons B X ih =>
    cases Y with
    | nil => simp
    | cons C Y =>
      rw [List.zipWith_cons_cons, bitsOfBytes_cons, bitsOfBytes_cons, bitsOfBytes_cons, ih, bitsOf_xor,
        List.zipWith_append (by simp)]

/-- The ciphertext is the text XOR the keystream, byte by byte (R104). -/
theorem ptText_eq_bytesRun (P : List Byte) (S : Lfsr) : ptText .lsbFirst P S =
    (List.zipWith (fun b ks => b ^^^ ks) P (bytesRun .encrypt true false P S).1,
     trailer false (bytesRun .encrypt true false P S).2) := by
  have hks : (stepBits .encrypt true false (bitsOfBytes .lsbFirst P) S).1 =
      bitsOfBytes .lsbFirst (bytesRun .encrypt true false P S).1 :=
    (bitsOfBytes_packBytes .lsbFirst P.length _ (by simp)).symm
  rw [ptText, hks, ← bitsOfBytes_zipWith_xor, packBytes_bitsOfBytes]
  rfl

theorem ctText_eq_bytesRun (C : List Byte) (S : Lfsr) : ctText .lsbFirst C S =
    ((bytesRun .decrypt true false C S).1, trailer false (bytesRun .decrypt true false C S).2) := rfl

theorem adS_eq_bytesRun (A : List Byte) (S : Lfsr) :
    adS .lsbFirst A S = trailer true (bytesRun .encrypt true true A S).2 := rfl

theorem bytesRun_replicate_zero (f : Form) (ca cb : Bool) (n : Nat) (S : Lfsr) :
    bytesRun f ca cb (List.replicate n 0#8) S =
      (packBytes .lsbFirst (stepBits f ca cb (zeros (8 * n)) S).1, (stepBits f ca cb (zeros (8 * n)) S).2) := by
  rw [bytesRun, bitsOfBytes_replicate_zero]

/-- The tag is what the last 16 of 96 zero bytes return (R106). -/
theorem finTag_eq_drop (S : Lfsr) :
    finTag .lsbFirst S = (bytesRun .encrypt true true (List.replicate 96 0#8) S).1.drop 80 := by
  have hsplit : List.replicate 96 0#8 = List.replicate 80 0#8 ++ List.replicate 16 0#8 :=
    List.replicate_add 80 16 0#8
  have hlen : (bytesRun .encrypt true true (List.replicate 80 0#8) S).1.length = 80 := by
    rw [bytesRun_length, List.length_replicate]
  rw [hsplit, bytesRun_append, List.drop_left' hlen, bytesRun_replicate_zero, bytesRun_replicate_zero]
  rfl

/-- Each half of the trailer is 16 bytes (R107, R108). -/
theorem trailer_eq_bytesRun (cb : Bool) (S : Lfsr) : trailer cb S =
    (bytesRun .encrypt false cb (List.replicate 16 0#8)
      (bytesRun .encrypt true cb (1#8 :: List.replicate 15 0#8) S).2).2 := by
  have hone : bitsOf .lsbFirst 1#8 = true :: zeros 7 := by decide
  have hfirst : bitsOfBytes .lsbFirst (1#8 :: List.replicate 15 0#8) = true :: zeros 127 := by
    rw [bitsOfBytes_cons, bitsOfBytes_replicate_zero, hone]
    rfl
  rw [trailer_eq_two_absorptions, bytesRun_replicate_zero, bytesRun, hfirst]
  rfl

/-! ### Words and their bytes -/

@[simp] theorem byteBit_nil (k : Nat) : byteBit [] k = false := by
  simp [byteBit]

theorem byteBit_cons (B : Byte) (X : List Byte) (k : Nat) :
    byteBit (B :: X) k = if k < 8 then B.getLsbD k else byteBit X (k - 8) := by
  rw [← List.singleton_append, byteBit_append, List.length_singleton, Nat.mul_one]
  split
  · next hk =>
    rw [byteBit, Nat.div_eq_of_lt hk, Nat.mod_eq_of_lt hk]
    rfl
  · rfl

/-- Bit `j` of a word of four bytes is bit `j` of the bytes (R35). -/
theorem getLsbD_bytesWord (x0 x1 x2 x3 : Byte) {j : Nat} (hj : j < 32) :
    (bytesWord .lsbFirst x0 x1 x2 x3).getLsbD j = byteBit [x0, x1, x2, x3] j := by
  have hlast : j - 8 - 8 - 8 < 8 := by omega
  have happend : bytesWord .lsbFirst x0 x1 x2 x3 = x3 ++ x2 ++ x1 ++ x0 := rfl
  simp only [happend, BitVec.getLsbD_append, byteBit_cons, if_pos hlast]

/-- The bits a word of four bytes carries are the bits of the bytes (R35). -/
theorem wordBits_bytesWord (x0 x1 x2 x3 : Byte) :
    wordBits .lsbFirst 32 (bytesWord .lsbFirst x0 x1 x2 x3) = bitsOfBytes .lsbFirst [x0, x1, x2, x3] :=
  bits_ext (by simp) fun k hk => by
    have hk : k < 32 := by simpa using hk
    rw [wordBits_getD _ hk, getLsbD_bytesWord _ _ _ _ hk, bitsOfBytes_getD _ _ hk]

/-- The word that carries the bits of four bytes is the word of the bytes (R35). -/
theorem bitsWord_bitsOfBytes (x0 x1 x2 x3 : Byte) :
    bitsWord .lsbFirst 32 (bitsOfBytes .lsbFirst [x0, x1, x2, x3]) = bytesWord .lsbFirst x0 x1 x2 x3 :=
  BitVec.eq_of_getLsbD_eq fun j hj => by
    rw [getLsbD_bitsWord _ hj, getLsbD_bytesWord _ _ _ _ hj, bitsOfBytes_getD _ _ hj]

/-- Cutting a word into bytes undoes joining them (R35). -/
theorem wordBytes_bytesWord (x0 x1 x2 x3 : Byte) :
    wordBytes .lsbFirst (bytesWord .lsbFirst x0 x1 x2 x3) = [x0, x1, x2, x3] := by
  have hcut (a : Nat) : (bytesWord .lsbFirst x0 x1 x2 x3).extractLsb' a 8 = (x3 ++ x2 ++ x1 ++ x0).extractLsb' a 8 := rfl
  simp only [wordBytes, hcut, BitVec.extractLsb'_append_eq_of_le, BitVec.extractLsb'_append_eq_right,
    BitVec.extractLsb'_eq_self, Nat.reduceLeDiff, Nat.reduceSub]

/-- The bytes of the word that carries 32 bits are the bits packed (R34, R35). -/
theorem wordBytes_bitsWord {q : List Bool} (hq : q.length = 32) :
    wordBytes .lsbFirst (bitsWord .lsbFirst 32 q) = packBytes .lsbFirst q := by
  have hlen : (packBytes .lsbFirst q).length = 4 := packBytes_length .lsbFirst 4 q hq
  obtain ⟨y0, y1, y2, y3, hy⟩ := List.length_eq_four.mp hlen
  have hbits : q = bitsOfBytes .lsbFirst [y0, y1, y2, y3] := by rw [← hy, bitsOfBytes_packBytes .lsbFirst 4 q hq]
  rw [hy, hbits, bitsWord_bitsOfBytes, wordBytes_bytesWord]

/-- A byte in a word carries the byte's bits in the word's low eight (R35). -/
theorem wordBits_setWidth (B : Byte) : wordBits .lsbFirst 8 (BitVec.setWidth 32 B) = bitsOf .lsbFirst B :=
  bits_ext (by simp) fun k hk => by
    have hk : k < 8 := by simpa using hk
    have h32 : k < 32 := by omega
    rw [bitsOf, wordBits_getD _ hk, wordBits_getD _ hk, BitVec.getLsbD_setWidth, decide_eq_true h32, Bool.true_and]

theorem packBytes_eight {q : List Bool} (o : BitOrder) (hq : q.length = 8) : packBytes o q = [bitsWord o 8 q] := by
  obtain ⟨b0, b1, b2, b3, b4, b5, b6, b7, rfl⟩ := eight_bits hq
  rfl

/-! ### One operation -/

/-- `cw` is the 32-bit operation of the given form and control pair (R51). -/
def IsWideOp (f : Form) (ca cb : Bool) (cw : Byte) : Prop :=
  match f with
  | .encrypt => decode cw = .ok (.step32 ca cb)
  | .decrypt => decode cw = .ok (.step32d ca cb)

/-- `cw` is the 8-bit operation of the given form and control pair (R51). -/
def IsNarrowOp (f : Form) (ca cb : Bool) (cw : Byte) : Prop :=
  match f with
  | .encrypt => decode cw = .ok (.step8 ca cb)
  | .decrypt => decode cw = .ok (.step8d ca cb)

theorem engineAnswer_wideOp {f : Form} {ca cb : Bool} {cw : Byte} (hcw : IsWideOp f ca cb cw) (W : Word32) (S : Lfsr) :
    engineAnswer .lsbFirst { word := cw, din := W } S =
      some (wordBytes .lsbFirst (engineStep f .bits32 ca cb W S).1, (engineStep f .bits32 ca cb W S).2) := by
  cases f with
  | encrypt =>
    have hd : decode cw = .ok (.step32 ca cb) := hcw
    rw [engineAnswer, hd]
    rfl
  | decrypt =>
    have hd : decode cw = .ok (.step32d ca cb) := hcw
    rw [engineAnswer, hd]
    rfl

theorem engineAnswer_narrowOp {f : Form} {ca cb : Bool} {cw : Byte} (hcw : IsNarrowOp f ca cb cw) (W : Word32)
    (S : Lfsr) : engineAnswer .lsbFirst { word := cw, din := W } S =
      some ([BitVec.setWidth 8 (engineStep f .bits8 ca cb W S).1], (engineStep f .bits8 ca cb W S).2) := by
  cases f with
  | encrypt =>
    have hd : decode cw = .ok (.step8 ca cb) := hcw
    rw [engineAnswer, hd]
    rfl
  | decrypt =>
    have hd : decode cw = .ok (.step8d ca cb) := hcw
    rw [engineAnswer, hd]
    rfl

/-- A 32-bit operation on the word of four bytes absorbs the four bytes (R35, R91). -/
theorem engineStep_bits32_bytesWord (f : Form) (ca cb : Bool) (x0 x1 x2 x3 : Byte) (S : Lfsr) :
    engineStep f .bits32 ca cb (bytesWord .lsbFirst x0 x1 x2 x3) S =
      (bitsWord .lsbFirst 32 (stepBits f ca cb (bitsOfBytes .lsbFirst [x0, x1, x2, x3]) S).1,
       (stepBits f ca cb (bitsOfBytes .lsbFirst [x0, x1, x2, x3]) S).2) := by
  rw [← wordBits_bytesWord]
  simp only [engineStep, widthBits, BitVec.setWidth_eq]
  rfl

/-- An 8-bit operation on a byte absorbs the byte (R35). -/
theorem engineStep_bits8_setWidth (f : Form) (ca cb : Bool) (B : Byte) (S : Lfsr) :
    engineStep f .bits8 ca cb (BitVec.setWidth 32 B) S =
      (BitVec.setWidth 32 (bitsWord .lsbFirst 8 (stepBits f ca cb (bitsOf .lsbFirst B) S).1),
       (stepBits f ca cb (bitsOf .lsbFirst B) S).2) := by
  rw [← wordBits_setWidth]
  rfl

/-! ### Schedules -/

/-- From every state the engine, run on the schedule, answers what absorbing the bytes `X` returns and leaves. -/
def Absorbs (f : Form) (ca cb : Bool) (ops : List EngineOp) (X : List Byte) : Prop :=
  ∀ S, runEngine .lsbFirst ops S = some (bytesRun f ca cb X S)

theorem runEngine_cons {o : BitOrder} {op : EngineOp} {rest : List EngineOp} {S : Lfsr} {r t : List Byte × Lfsr}
    (hop : engineAnswer o op S = some r) (hrest : runEngine o rest r.2 = some t) :
    runEngine o (op :: rest) S = some (r.1 ++ t.1, t.2) := by
  simp [runEngine, hop, hrest]

/-- Schedules compose (R41). -/
theorem runEngine_append {o : BitOrder} {p q : List EngineOp} {S : Lfsr} {r t : List Byte × Lfsr}
    (hp : runEngine o p S = some r) (hq : runEngine o q r.2 = some t) :
    runEngine o (p ++ q) S = some (r.1 ++ t.1, t.2) := by
  induction p generalizing S r with
  | nil =>
    cases hp
    exact hq
  | cons op p ih =>
    unfold runEngine at hp
    split at hp
    · cases hp
    · next a ha =>
      split at hp
      · cases hp
      · next u hu =>
        cases hp
        rw [List.cons_append, runEngine_cons ha (ih hu hq), List.append_assoc]

section
variable {f : Form} {ca cb : Bool}

theorem absorbs_nil : Absorbs f ca cb [] [] := fun _ => rfl

theorem Absorbs.append {p q : List EngineOp} {X Y : List Byte} (hp : Absorbs f ca cb p X) (hq : Absorbs f ca cb q Y) :
    Absorbs f ca cb (p ++ q) (X ++ Y) := fun S => by
  rw [runEngine_append (hp S) (hq _), bytesRun_append]

theorem Absorbs.repeated {p : List EngineOp} {X : List Byte} (hp : Absorbs f ca cb p X) (n : Nat) :
    Absorbs f ca cb (List.replicate n p).flatten (List.replicate n X).flatten := by
  induction n with
  | zero => exact absorbs_nil
  | succ n ih => exact hp.append ih

theorem wideOp_absorbs {cw : Byte} (hcw : IsWideOp f ca cb cw) (x0 x1 x2 x3 : Byte) :
    Absorbs f ca cb [{ word := cw, din := bytesWord .lsbFirst x0 x1 x2 x3 }] [x0, x1, x2, x3] := fun S => by
  rw [runEngine_cons (engineAnswer_wideOp hcw _ S) rfl, engineStep_bits32_bytesWord, wordBytes_bitsWord (by simp),
    List.append_nil, bytesRun]

theorem narrowOp_absorbs {cw : Byte} (hcw : IsNarrowOp f ca cb cw) (B : Byte) :
    Absorbs f ca cb [{ word := cw, din := BitVec.setWidth 32 B }] [B] := fun S => by
  have hbits : bitsOfBytes .lsbFirst [B] = bitsOf .lsbFirst B := by simp
  rw [runEngine_cons (engineAnswer_narrowOp hcw _ S) rfl, engineStep_bits8_setWidth, List.append_nil, bytesRun, hbits,
    packBytes_eight _ (by simp), BitVec.setWidth_setWidth_of_le _ (by decide), BitVec.setWidth_eq]

theorem tail_absorbs {cw : Byte} (hcw : IsNarrowOp f ca cb cw) (X : List Byte) :
    Absorbs f ca cb (X.map fun B => { word := cw, din := BitVec.setWidth 32 B }) X := by
  induction X with
  | nil => exact absorbs_nil
  | cons B X ih => exact (narrowOp_absorbs hcw B).append ih

end

/-! ### Cutting into words -/

/-- What the second equation of `cutWords` is left with: a tail of 0 to 3 bytes (R37). -/
theorem length_lt_four {X : List Byte} (h : ∀ x0 x1 x2 x3 rest, X = x0 :: x1 :: x2 :: x3 :: rest → False) :
    X.length < 4 := by
  match X with
  | [] | [_] | [_, _] | [_, _, _] => simp
  | x0 :: x1 :: x2 :: x3 :: rest => exact (h x0 x1 x2 x3 rest rfl).elim

theorem cutWords_cons (o : BitOrder) (x0 x1 x2 x3 : Byte) (rest : List Byte) :
    cutWords o (x0 :: x1 :: x2 :: x3 :: rest) =
      (bytesWord o x0 x1 x2 x3 :: (cutWords o rest).1, (cutWords o rest).2) := by
  rw [cutWords]

theorem cutWords_short (o : BitOrder) {X : List Byte} (h : X.length < 4) : cutWords o X = ([], X) := by
  match X, h with
  | [], _ | [_], _ | [_, _], _ | [_, _, _], _ => rfl

/-- `⌊n/4⌋` words (R109). -/
theorem cutWords_fst_length (o : BitOrder) (X : List Byte) : (cutWords o X).1.length = X.length / 4 := by
  induction X using cutWords.induct (o := o) with
  | case1 x0 x1 x2 x3 rest ih =>
    rw [cutWords_cons, List.length_cons, ih]
    simp only [List.length_cons]
    omega
  | case2 X hshort =>
    have hlen := length_lt_four hshort
    rw [cutWords_short o hlen, List.length_nil]
    omega

/-- `n mod 4` tail bytes (R37, R109). -/
theorem cutWords_snd_length (o : BitOrder) (X : List Byte) : (cutWords o X).2.length = X.length % 4 := by
  induction X using cutWords.induct (o := o) with
  | case1 x0 x1 x2 x3 rest ih =>
    rw [cutWords_cons, ih]
    simp only [List.length_cons]
    omega
  | case2 X hshort =>
    have hlen := length_lt_four hshort
    rw [cutWords_short o hlen]
    exact (Nat.mod_eq_of_lt hlen).symm

section
variable {f : Form} {ca cb : Bool}

/-- The words of whole words of bytes absorb the bytes. -/
theorem words_absorb {cw : Byte} (hcw : IsWideOp f ca cb cw) (X : List Byte) (hX : X.length % 4 = 0) :
    Absorbs f ca cb ((cutWords .lsbFirst X).1.map fun W => { word := cw, din := W }) X := by
  induction X using cutWords.induct (o := .lsbFirst) with
  | case1 x0 x1 x2 x3 rest ih =>
    rw [cutWords_cons]
    exact (wideOp_absorbs hcw x0 x1 x2 x3).append (ih (by simp only [List.length_cons] at hX; omega))
  | case2 X hshort =>
    have hlen := length_lt_four hshort
    obtain rfl : X = [] := List.eq_nil_of_length_eq_zero (by omega)
    exact absorbs_nil

/-- The data operations of a phase absorb its bytes, tail included (R37, R109). -/
theorem dataSchedule_absorbs {cw32 cw8 : Byte} (hwide : IsWideOp f ca cb cw32) (hnarrow : IsNarrowOp f ca cb cw8)
    (X : List Byte) : Absorbs f ca cb (dataSchedule .lsbFirst cw32 cw8 X) X := by
  induction X using cutWords.induct (o := .lsbFirst) with
  | case1 x0 x1 x2 x3 rest ih =>
    rw [dataSchedule, cutWords_cons]
    exact (wideOp_absorbs hwide x0 x1 x2 x3).append ih
  | case2 X hshort =>
    rw [dataSchedule, cutWords_short _ (length_lt_four hshort)]
    exact tail_absorbs hnarrow X

/-- Operations on the zero word absorb zero bytes. -/
theorem zeroOps_absorb {cw : Byte} (hcw : IsWideOp f ca cb cw) (n : Nat) :
    Absorbs f ca cb (List.replicate n { word := cw, din := 0#32 }) (List.replicate (4 * n) 0#8) := by
  induction n with
  | zero => exact absorbs_nil
  | succ n ih => exact (wideOp_absorbs hcw 0#8 0#8 0#8 0#8).append ih

end

/-! ### The trailer -/

/-- `FIRST` is the word of the bytes 1, 0, 0, 0 (R109). -/
theorem firstWord_eq_bytesWord : firstWord .lsbFirst = bytesWord .lsbFirst 1#8 0#8 0#8 0#8 := by
  decide

/-- The eight operations of the trailer leave what its 256 steps leave (R107, R109). -/
theorem runEngine_trailerSchedule {cb : Bool} {hi lo : Byte} (hhi : IsWideOp .encrypt true cb hi)
    (hlo : IsWideOp .encrypt false cb lo) (S : Lfsr) :
    ∃ out, runEngine .lsbFirst (trailerSchedule .lsbFirst hi lo) S = some (out, trailer cb S) := by
  have hfirst : Absorbs .encrypt true cb
      ([firstWord .lsbFirst, 0#32, 0#32, 0#32].map fun W => { word := hi, din := W }) (1#8 :: List.replicate 15 0#8) := by
    rw [firstWord_eq_bytesWord]
    exact (wideOp_absorbs hhi 1#8 0#8 0#8 0#8).append (zeroOps_absorb hhi 3)
  rw [trailer_eq_bytesRun]
  exact ⟨_, runEngine_append (hfirst S) (zeroOps_absorb hlo 4 _)⟩

/-- The data of a phase and then its trailer: the data's result bytes come first. -/
theorem runEngine_data_trailer {f : Form} {ca cb : Bool} {cw32 cw8 hi lo : Byte} (hwide : IsWideOp f ca cb cw32)
    (hnarrow : IsNarrowOp f ca cb cw8) (hhi : IsWideOp .encrypt true cb hi) (hlo : IsWideOp .encrypt false cb lo)
    (X : List Byte) (S : Lfsr) : ∃ out,
    runEngine .lsbFirst (dataSchedule .lsbFirst cw32 cw8 X ++ trailerSchedule .lsbFirst hi lo) S =
      some ((bytesRun f ca cb X S).1 ++ out, trailer cb (bytesRun f ca cb X S).2) := by
  obtain ⟨out, hout⟩ := runEngine_trailerSchedule hhi hlo (bytesRun f ca cb X S).2
  exact ⟨out, runEngine_append (dataSchedule_absorbs hwide hnarrow X S) hout⟩

/-! ### `AD`, `PT` and `CT` -/

theorem runEngine_adSchedule (A : List Byte) (S : Lfsr) : ∃ out, runEngine .lsbFirst (adSchedule .lsbFirst A) S =
    some ((bytesRun .encrypt true true A S).1 ++ out, adS .lsbFirst A S) := by
  rw [adS_eq_bytesRun]
  exact runEngine_data_trailer (by rfl) (by rfl) (by rfl) (by rfl) A S

theorem runEngine_ptSchedule (P : List Byte) (S : Lfsr) : ∃ out, runEngine .lsbFirst (ptSchedule .lsbFirst P) S =
    some ((bytesRun .encrypt true false P S).1 ++ out, (ptText .lsbFirst P S).2) := by
  rw [ptText_eq_bytesRun]
  exact runEngine_data_trailer (by rfl) (by rfl) (by rfl) (by rfl) P S

theorem runEngine_ctSchedule (C : List Byte) (S : Lfsr) : ∃ out, runEngine .lsbFirst (ctSchedule .lsbFirst C) S =
    some ((ctText .lsbFirst C S).1 ++ out, (ctText .lsbFirst C S).2) := by
  rw [ctText_eq_bytesRun]
  exact runEngine_data_trailer (by rfl) (by rfl) (by rfl) (by rfl) C S

/-- Settles O53: the data operations return and leave what the bit form does, and the trailer's results come after the text. -/
theorem dataSchedulesGiveTheSameResults : Obligations.DataSchedulesGiveTheSameResults := by
  intro s t he
  refine ⟨fun hp h => ?ad, fun hp h => ?pt, fun hp h => ?ct⟩
  case ad =>
    cases (exec_ad he hp).symm.trans h
    obtain ⟨out, hrun⟩ := runEngine_adSchedule s.ops.adata s.S
    exact ⟨_, hrun⟩
  case pt =>
    cases (exec_pt he hp).symm.trans h
    obtain ⟨out, hrun⟩ := runEngine_ptSchedule s.ops.textIn s.S
    refine ⟨_, hrun, ?_⟩
    have htext : (ptText .lsbFirst s.ops.textIn s.S).1 = List.zipWith (fun b ks => b ^^^ ks) s.ops.textIn
        ((bytesRun .encrypt true false s.ops.textIn s.S).1 ++ out) := by
      rw [ptText_eq_bytesRun]
      simpa using (List.zipWith_append (f := fun b ks : Byte => b ^^^ ks) (l₁' := []) (l₂' := out)
        (bytesRun_length .encrypt true false s.ops.textIn s.S).symm).symm
    rw [htext]
  case ct =>
    cases (exec_ct he hp).symm.trans h
    obtain ⟨out, hrun⟩ := runEngine_ctSchedule s.ops.textIn s.S
    refine ⟨_, hrun, ?_⟩
    rw [List.take_left' (ctText_length _ _ _)]

/-! ### `INIT` and `FIN` -/

/-- The bytes of the initialization sequence: the key, the nonce, the key with its first bit complemented, the key eleven
times more (R102, R109). -/
def initBytes (K N : List Byte) : List Byte :=
  K ++ N ++ K.modifyHead (fun B => B ^^^ 1#8) ++ (List.replicate 11 K).flatten

theorem byteBit_modifyHead {K : List Byte} (hK : K ≠ []) (k : Nat) :
    byteBit (K.modifyHead fun B => B ^^^ 1#8) k = if k = 0 then !byteBit K 0 else byteBit K k := by
  cases K with
  | nil => exact absurd rfl hK
  | cons B rest =>
    rw [List.modifyHead_cons]
    by_cases hk : k < 8
    · by_cases h0 : k = 0
      · subst h0
        simp [byteBit_cons]
      · simp [byteBit_cons, hk, h0]
    · have h0 : k ≠ 0 := by omega
      simp [byteBit_cons, hk, h0]

theorem byteBit_repeated {K : List Byte} (hK : K.length = 16) {n k : Nat} (hk : k < 128 * n) :
    byteBit (List.replicate n K).flatten k = byteBit K (k % 128) := by
  induction n generalizing k with
  | zero => omega
  | succ n ih =>
    rw [List.replicate_succ, List.flatten_cons, byteBit_append, hK]
    split
    · next hin => rw [Nat.mod_eq_of_lt hin]
    · next hout => rw [ih (by omega), Nat.mod_eq_sub_mod (by omega : k ≥ 128)]

section
variable {K N : List Byte} (hK : K.length = 16) (hN : N.length = 16)
include hK hN

theorem initBytes_length : (initBytes K N).length = 224 := by
  simp [initBytes, hK, hN]

theorem byteBit_initBytes {i : Nat} (hi : i < 1792) : byteBit (initBytes K N) i = initBit K N i := by
  have hne : K ≠ [] := by
    rintro rfl
    simp at hK
  have hplace : i - 128 - 128 = i - 256 := by omega
  simp only [initBytes, List.append_assoc, byteBit_append, List.length_modifyHead, hK, hN, byteBit_modifyHead hne, initBit,
    Nat.reduceMul, hplace]
  by_cases hkey : i < 128
  · rw [if_pos hkey, if_pos hkey]
  rw [if_neg hkey, if_neg hkey]
  by_cases hnonce : i < 256
  · rw [if_pos (by omega), if_pos hnonce]
  rw [if_neg (by omega), if_neg hnonce]
  by_cases hfirst : i = 256
  · subst hfirst
    rfl
  rw [if_neg hfirst]
  by_cases hcompl : i - 256 < 128
  · rw [if_pos hcompl, if_neg (by omega), Nat.mod_eq_of_lt hcompl]
  · rw [if_neg hcompl, byteBit_repeated hK (by omega), Nat.mod_eq_sub_mod (by omega : i - 256 ≥ 128)]

/-- The initialization sequence is the bits of these bytes (R102). -/
theorem qInit_eq_bitsOfBytes : qInit .lsbFirst K N = bitsOfBytes .lsbFirst (initBytes K N) := by
  have hlen : (initBytes K N).length = 224 := initBytes_length hK hN
  refine bits_ext (by rw [qInit_length, bitsOfBytes_length, hlen, hK, hN]) fun i hi => ?_
  have hi : i < 1792 := by rwa [bitsOfBytes_length, hlen] at hi
  rw [qInit_getD hK hN hi, bitsOfBytes_getD _ _ (by omega), byteBit_initBytes hK hN hi]

theorem initS_eq_bytesRun : initS .lsbFirst K N = (bytesRun .encrypt true true (initBytes K N) 0#293).2 := by
  rw [initS, absorb, qInit_eq_bitsOfBytes hK hN, bytesRun]

end

/-- Complementing the first bit of a word complements it in the word's first byte (R109). -/
theorem bytesWord_xor_firstWord (x0 x1 x2 x3 : Byte) :
    bytesWord .lsbFirst x0 x1 x2 x3 ^^^ firstWord .lsbFirst = bytesWord .lsbFirst (x0 ^^^ 1#8) x1 x2 x3 := by
  rw [firstWord_eq_bytesWord]
  refine BitVec.eq_of_getLsbD_eq fun j hj => ?_
  rw [BitVec.getLsbD_xor]
  by_cases hfirst : j < 8
  · simp [getLsbD_bytesWord _ _ _ _ hj, byteBit_cons, hfirst]
  · simp [getLsbD_bytesWord _ _ _ _ hj, byteBit_cons, hfirst]

/-- The words of the key with its first bit complemented, as the controller makes them (R109). -/
theorem complementedWords {K : List Byte} (hK : K.length = 16) :
    ((cutWords .lsbFirst K).1.take 1).map (fun W => W ^^^ firstWord .lsbFirst) ++ (cutWords .lsbFirst K).1.drop 1 =
      (cutWords .lsbFirst (K.modifyHead fun B => B ^^^ 1#8)).1 := by
  match K, hK with
  | x0 :: x1 :: x2 :: x3 :: rest, _ =>
    rw [List.modifyHead_cons, cutWords_cons, cutWords_cons, ← bytesWord_xor_firstWord]
    rfl

/-- The 56 operations of `INIT` absorb the bytes of the initialization sequence (R109). -/
theorem initSchedule_absorbs {K N : List Byte} (hK : K.length = 16) (hN : N.length = 16) :
    Absorbs .encrypt true true (initSchedule .lsbFirst K N) (initBytes K N) := by
  have hop : IsWideOp .encrypt true true 0x4C#8 := rfl
  have hkey := words_absorb hop K (by rw [hK])
  have hnonce := words_absorb hop N (by rw [hN])
  have hcompl := words_absorb hop (K.modifyHead fun B => B ^^^ 1#8) (by rw [List.length_modifyHead, hK])
  simp only [initSchedule, complementedWords hK, List.map_append, List.map_flatten, List.map_replicate]
  exact ((hkey.append hnonce).append hcompl).append (hkey.repeated 11)

theorem runEngine_initSchedule {K N : List Byte} (hK : K.length = 16) (hN : N.length = 16) :
    ∃ out, runEngine .lsbFirst (initSchedule .lsbFirst K N) 0#293 = some (out, initS .lsbFirst K N) := by
  rw [initS_eq_bytesRun hK hN]
  exact ⟨_, initSchedule_absorbs hK hN 0#293⟩

/-- The 24 operations of `FIN` absorb 96 zero bytes (R109). -/
theorem finSchedule_absorbs : Absorbs .encrypt true true finSchedule (List.replicate 96 0#8) :=
  zeroOps_absorb (by rfl) 24

/-- Settles O52: the operations of `INIT` absorb the bytes of its sequence, those of `FIN` the zero bytes whose last 16 results
are the tag. -/
theorem fixedSchedulesGiveTheSameResults : Obligations.FixedSchedulesGiveTheSameResults := by
  intro s t he
  refine ⟨fun hK hN h => ?init, fun hp h => ?fin⟩
  case init =>
    cases (exec_init he hK hN).symm.trans h
    exact runEngine_initSchedule hK hN
  case fin =>
    cases (exec_fin he hp).symm.trans h
    refine ⟨(bytesRun .encrypt true true (List.replicate 96 0#8) s.S).1, _, finSchedule_absorbs s.S, ?_⟩
    rw [tagBytes_tagOfBytes (finTag_length _ _), finTag_eq_drop]

/-! ### What a message costs -/

/-- The words of a schedule, in order. -/
def wordsOf (ops : List EngineOp) : List Byte := ops.map EngineOp.word

theorem wordsOf_append (p q : List EngineOp) : wordsOf (p ++ q) = wordsOf p ++ wordsOf q := List.map_append

theorem countWord_eq_count (cw : Byte) (ops : List EngineOp) : countWord cw ops = (wordsOf ops).count cw := by
  rw [wordsOf, List.count, List.countP_map]
  rfl

@[simp] theorem wordsOf_length (ops : List EngineOp) : (wordsOf ops).length = ops.length := List.length_map _

theorem wordsOf_dataSchedule (o : BitOrder) (cw32 cw8 : Byte) (X : List Byte) :
    wordsOf (dataSchedule o cw32 cw8 X) =
      List.replicate (X.length / 4) cw32 ++ List.replicate (X.length % 4) cw8 := by
  rw [← cutWords_fst_length o, ← cutWords_snd_length o]
  simp [wordsOf, dataSchedule, Function.comp_def]

theorem wordsOf_trailerSchedule (o : BitOrder) (hi lo : Byte) :
    wordsOf (trailerSchedule o hi lo) = List.replicate 4 hi ++ List.replicate 4 lo := by
  simp [wordsOf, trailerSchedule]

theorem wordsOf_initSchedule (o : BitOrder) {K N : List Byte} (hK : K.length = 16) (hN : N.length = 16) :
    wordsOf (initSchedule o K N) = List.replicate 56 0x4C#8 := by
  simp [wordsOf, initSchedule, Function.comp_def, cutWords_fst_length, hK, hN]

theorem wordsOf_finSchedule : wordsOf finSchedule = List.replicate 24 0x4C#8 := by
  simp [wordsOf, finSchedule]

/-- The words of a message of `a` bytes of associated data and `t` bytes of text, which the words `text32` and `text8`
process (R109). -/
def messageWords (text32 text8 : Byte) (a t : Nat) : List Byte :=
  List.replicate 56 0x4C#8 ++
    (List.replicate (a / 4) 0x4C#8 ++ List.replicate (a % 4) 0x2C#8 ++
      (List.replicate 4 0x4C#8 ++ List.replicate 4 0x44#8)) ++
    (List.replicate (t / 4) text32 ++ List.replicate (t % 4) text8 ++
      (List.replicate 4 0x48#8 ++ List.replicate 4 0x40#8)) ++
    List.replicate 24 0x4C#8

theorem wordsOf_messageSchedule (o : BitOrder) {K N : List Byte} (A P : List Byte) (hK : K.length = 16)
    (hN : N.length = 16) :
    wordsOf (messageSchedule o K N A P) = messageWords 0x48#8 0x28#8 A.length P.length := by
  simp only [messageSchedule, adSchedule, ptSchedule, wordsOf_append, wordsOf_initSchedule o hK hN, wordsOf_dataSchedule,
    wordsOf_trailerSchedule, wordsOf_finSchedule, messageWords]

theorem wordsOf_decryptionSchedule (o : BitOrder) {K N : List Byte} (A C : List Byte) (hK : K.length = 16)
    (hN : N.length = 16) :
    wordsOf (decryptionSchedule o K N A C) = messageWords 0x58#8 0x38#8 A.length C.length := by
  simp only [decryptionSchedule, adSchedule, ctSchedule, wordsOf_append, wordsOf_initSchedule o hK hN,
    wordsOf_dataSchedule, wordsOf_trailerSchedule, wordsOf_finSchedule, messageWords]

theorem messageWords_length (text32 text8 : Byte) (a t : Nat) :
    (messageWords text32 text8 a t).length = 96 + a / 4 + t / 4 + a % 4 + t % 4 := by
  simp only [messageWords, List.length_append, List.length_replicate]
  omega

/-- The word selects an engine operation (R51, R55). -/
def IsEngineWord (cw : Byte) : Prop := ∃ i, decode cw = .ok i ∧ i.isFormatE = true

theorem isEngineWord_of_wordsOf {ops : List EngineOp} (h : ∀ cw ∈ wordsOf ops, IsEngineWord cw) :
    ∀ op ∈ ops, IsEngineWord op.word :=
  fun _ hop => h _ (List.mem_map_of_mem hop)

/-- How many operations of a message carry the word `cw`, phase by phase (R109). -/
theorem count_messageWords (text32 text8 : Byte) (a t : Nat) (cw : Byte) :
    (messageWords text32 text8 a t).count cw =
      (if 0x4C#8 = cw then 84 + a / 4 else 0) + (if 0x2C#8 = cw then a % 4 else 0) + (if 0x44#8 = cw then 4 else 0) +
      (if text32 = cw then t / 4 else 0) + (if text8 = cw then t % 4 else 0) + (if 0x48#8 = cw then 4 else 0) +
      (if 0x40#8 = cw then 4 else 0) := by
  simp only [messageWords, List.count_append, List.count_replicate, beq_iff_eq]
  grind

theorem isEngineWord_messageWords {text32 text8 : Byte} (h32 : IsEngineWord text32) (h8 : IsEngineWord text8)
    (a t : Nat) : ∀ cw ∈ messageWords text32 text8 a t, IsEngineWord cw := by
  have h4C : IsEngineWord 0x4C#8 := ⟨_, rfl, rfl⟩
  have h2C : IsEngineWord 0x2C#8 := ⟨_, rfl, rfl⟩
  have h44 : IsEngineWord 0x44#8 := ⟨_, rfl, rfl⟩
  have h48 : IsEngineWord 0x48#8 := ⟨_, rfl, rfl⟩
  have h40 : IsEngineWord 0x40#8 := ⟨_, rfl, rfl⟩
  simp only [messageWords, List.forall_mem_append, List.forall_mem_replicate, h4C, h2C, h44, h48, h40, h32, h8, or_true,
    and_self]

/-- Settles O54: the words of a message are runs of one word each, counted run by run. -/
theorem messageCostsTheTabulatedOperations : Obligations.MessageCostsTheTabulatedOperations := by
  refine ⟨fun o K N A P hK hN => ?encryption, fun o K N A C hK hN => ?decryption⟩
  case encryption =>
    intro ops
    have hwords : wordsOf ops = messageWords 0x48#8 0x28#8 A.length P.length := wordsOf_messageSchedule o A P hK hN
    simp only [countWord_eq_count, ← wordsOf_length ops, hwords, count_messageWords, messageWords_length]
    refine ⟨?wide, ?ad8, ?text8, trivial, isEngineWord_of_wordsOf ?assigned⟩
    case wide =>
      simp only [BitVec.reduceEq, if_true, if_false]
      omega
    case ad8 => simp
    case text8 => simp
    case assigned =>
      rw [hwords]
      exact isEngineWord_messageWords ⟨_, rfl, rfl⟩ ⟨_, rfl, rfl⟩ _ _
  case decryption =>
    intro ops
    have hwords : wordsOf ops = messageWords 0x58#8 0x38#8 A.length C.length := wordsOf_decryptionSchedule o A C hK hN
    simp only [countWord_eq_count, ← wordsOf_length ops, hwords, count_messageWords, messageWords_length]
    refine ⟨?wide, ?text32, ?ad8, ?text8, trivial, isEngineWord_of_wordsOf ?assigned⟩
    case wide =>
      simp only [BitVec.reduceEq, if_true, if_false]
      omega
    case text32 => simp
    case ad8 => simp
    case text8 => simp
    case assigned =>
      rw [hwords]
      exact isEngineWord_messageWords ⟨_, rfl, rfl⟩ ⟨_, rfl, rfl⟩ _ _

end Sys2Proof.Machine
end

section
/-!
PROOFS. The tag comparator, `CLR`, and the AEAD interface (`43_api_and_compare.md`): the comparator as equality of byte
sequences (R120), `ENCRYPT` and `DECRYPT` as runs of their commands (R123 to R125), and that decryption undoes encryption
(R126).
-/

namespace Sys2Proof.Machine

/-! ### The comparator -/

/-- An accumulation by OR is zero exactly when it starts at zero and every byte it takes in is (R120). -/
theorem foldl_or_eq_zero_iff {α : Type} (f : α → Byte) (xs : List α) (d : Byte) :
    xs.foldl (fun diff x => diff ||| f x) d = 0#8 ↔ d = 0#8 ∧ ∀ x ∈ xs, f x = 0#8 := by
  induction xs generalizing d with
  | nil => simp
  | cons x xs ih => rw [List.foldl_cons, ih, BitVec.or_eq_zero_iff, List.forall_mem_cons, and_assoc]

theorem tagMatches_iff_bytes (T : List Byte) (t : TagWord) :
    tagMatches T t = true ↔ ∀ i, i < 16 → memRead T i = tagByte t i := by
  simp [tagMatches, tagDifference, foldl_or_eq_zero_iff, BitVec.xor_eq_zero_iff]

/-- Of a 16-byte tag the comparator tests equality with the bytes of `TAG` (R120). -/
theorem tagMatches_iff {T : List Byte} (hT : T.length = 16) (t : TagWord) : tagMatches T t = true ↔ T = tagBytes t := by
  have hbyte (i : Nat) (hi : i < 16) : (tagBytes t).getD i 0#8 = tagByte t i := by
    simp [tagBytes, Config.tagBytes, hi]
  rw [tagMatches_iff_bytes]
  constructor
  · intro h
    refine List.ext_getElem (by rw [hT, tagBytes_length]) fun i hi hi' => ?_
    rw [← List.getD_eq_getElem T 0#8 hi, ← List.getD_eq_getElem (tagBytes t) 0#8 hi', hbyte i (by omega)]
    exact h i (by omega)
  · rintro rfl i hi
    exact hbyte i hi

theorem tagMatches_eq_decide {T : List Byte} (hT : T.length = 16) (t : TagWord) :
    tagMatches T t = decide (T = tagBytes t) := by
  rw [Bool.eq_iff_iff, tagMatches_iff hT, decide_eq_true_iff]

/-- The admission condition of `CMP` (R142). -/
theorem cmpAdmitted_of_taggedDec {s : State} (hp : s.ph = .tagged) (hd : s.dir = .dec) :
    (s.ph == .tagged && s.dir == .dec) = true := by
  simp [hp, hd]

/-- In `TAGGED` with `DIR = DEC` and a 16-byte tag `CMP` is executed (R120). -/
theorem exec_cmp {s : State} (he : s.err = false) (hp : s.ph = .tagged) (hd : s.dir = .dec)
    (hT : s.ops.tagIn.length = 16) :
    exec .cmp s = .next { s with
      ok := tagMatches s.ops.tagIn s.tag, tag := 0#128, ph := .verified,
      results := s.results ++ [.okOut (tagMatches s.ops.tagIn s.tag)] } := by
  have hlength : cmpLengthOk s.ops = true := (cmpLengthOk_iff s.ops).mpr hT
  rw [exec, execCmp, cmpAdmitted_of_taggedDec hp hd, hlength]
  exact hostCommand_done he

/-- Settles O33: the comparator's test is equality of the two tags, and the checks decide in the order of R148. -/
theorem cmpCompletes : Obligations.CmpCompletes := by
  refine ⟨fun s he hp hd hT => ?compared, fun s he hp hd hT => ?length, fun s he hwhen => ?sequence,
    fun s he => hostCommand_faulted he⟩
  case compared => rw [exec_cmp he hp hd hT, tagMatches_eq_decide hT]
  case length =>
    have hlength : cmpLengthOk s.ops = false := by rwa [Bool.eq_false_iff, ne_eq, cmpLengthOk_iff]
    rw [exec, execCmp, cmpAdmitted_of_taggedDec hp hd, hlength]
    exact hostCommand_badLength he
  case sequence =>
    have hadmitted : (s.ph == .tagged && s.dir == .dec) = false := by
      rcases hwhen with hp | hd
      · simp [hp]
      · simp [hd]
    rw [exec, execCmp, hadmitted]
    exact hostCommand_notAdmitted he

/-! ### `CLR` -/

theorem exec_clr (s : State) : exec .clr s = .next s.clearAll := rfl

/-- No effect but that of `CLR` takes `ERR` back to 0 (R122). -/
theorem Effect.eq_clr_of_err_cleared {i : Instr} {s u : State} (h : Effect i s u) (hs : s.err = true)
    (hu : u.err = false) : i = .clr := by
  have hkept : u.err ≠ s.err := by simp [hs, hu]
  cases h with
  | cleared h => exact h
  | unchanged => exact absurd rfl hkept
  | raised c _ _ => exact nomatch hu
  | engine f w ca cb _ _ => exact absurd rfl hkept
  | init _ _ => exact absurd rfl hkept
  | ad _ _ _ => exact absurd rfl hkept
  | text d r _ _ _ => exact absurd rfl hkept
  | fin _ _ _ => exact absurd rfl hkept
  | cmp _ _ _ _ => exact absurd rfl hkept

/-- Settles O34: `CLR` has no check, and the other effects do not clear `ERR`. -/
theorem clrCompletes : Obligations.ClrCompletes :=
  ⟨exec_clr, fun _ _ _ h hs ht => (exec_effect h).eq_clr_of_err_cleared hs ht⟩

/-! ### Runs of host commands -/

/-- A host command at the head of the commands to come is executed, its operands are released, and the run goes on from
there (R42). -/
theorem runSteps_hostRequest {n : Nat} {s u : State} {i : Instr} {x : Operands} {rest : List Request}
    {y : Host.Outcome State Fault Refusal} (hp : s.pending = hostRequest i x :: rest)
    (hexec : exec i (s.present (hostRequest i x) rest) = .next u) (hrun : runSteps n u.release = y) :
    runSteps (n + 1) s = y := by
  have hissue : issueWord (encode i) (s.present (hostRequest i x) rest) = .next u :=
    (issueWord_of_ok (decode_encode i) rfl).trans hexec
  have hstep : step s = .next u.release := (step_cons hp).trans (congrArg releaseOutcome hissue)
  rw [runSteps_succ n hstep, hrun]

/-- After `CLR` has returned only the commands to come and the results tell the state from reset (R122). -/
theorem clearAll_release (s : State) :
    s.clearAll.release = { State.reset with pending := s.pending, results := s.results } := rfl

/-- `INIT` and `AD` open a message in any phase: `PH` is `AD_DONE`, `S` holds key, nonce and associated data, and nothing
of an earlier message is left (R101, R103). -/
theorem runSteps_openMessage {n : Nat} {s : State} {K N A : List Byte} {rest : List Request}
    {y : Host.Outcome State Fault Refusal} (he : s.err = false) (hK : K.length = 16) (hN : N.length = 16)
    (hp : s.pending = openMessage K N A ++ rest)
    (hrun : runSteps n { s with
      S := adS .lsbFirst A (initS .lsbFirst K N), tag := 0#128, ok := false, dir := .enc, ph := .adDone,
      ops := Operands.empty, issuer := .host, pending := rest } = y) :
    runSteps (n + 2) s = y := by
  refine runSteps_hostRequest hp (exec_init he hK hN) ?_
  exact runSteps_hostRequest rfl (exec_ad he rfl) hrun

/-- Settles O45: the message is opened, then `PT`, `FIN` and `CLR` find the phase and the direction they need. -/
theorem encryptRunReturnsCiphertextAndTag : Obligations.EncryptRunReturnsCiphertextAndTag := by
  intro s K N A P rest he hK hN hp
  refine runSteps_openMessage he hK hN hp ?_
  refine runSteps_hostRequest rfl (exec_pt he rfl) ?_
  refine runSteps_hostRequest rfl (exec_fin he rfl) ?_
  refine runSteps_hostRequest rfl (exec_clr _) ?_
  simp [clearAll_release, finResult, encryptValue, hostRequest, Config.bitOrder]

/-- Settles O46: as O45, with `CT` setting `DIR` to `DEC`, so that `FIN` returns nothing and `CMP` is admitted (R125). -/
theorem decryptRunReturnsPlaintextAndFlag : Obligations.DecryptRunReturnsPlaintextAndFlag := by
  intro s K N A C T rest he hK hN hT hp
  refine runSteps_openMessage he hK hN hp ?_
  refine runSteps_hostRequest rfl (exec_ct he rfl) ?_
  refine runSteps_hostRequest rfl (exec_fin he rfl) ?_
  refine runSteps_hostRequest rfl (exec_cmp he rfl rfl hT) ?_
  refine runSteps_hostRequest rfl (exec_clr _) ?_
  simp [clearAll_release, finResult, decryptValue, hostRequest, Config.bitOrder]

/-! ### Decryption undoes encryption -/

/-- On the bits of a text XOR the bits its encryption returns, the decrypt form returns the text and goes through the same
registers (R86, R105). -/
theorem stepBits_decrypt_of_encrypt (ca cb : Bool) (p : List Bool) (S : Lfsr) :
    stepBits .decrypt ca cb (List.zipWith (fun b ks => b ^^ ks) p (stepBits .encrypt ca cb p S).1) S =
      (p, (stepBits .encrypt ca cb p S).2) := by
  induction p generalizing S with
  | nil => rfl
  | cons m p ih =>
    have hbit : stepForm .decrypt (m ^^ (stepForm .encrypt m ca cb S).1) ca cb S =
        (m, (stepForm .encrypt m ca cb S).2) := decryptStepRecoversTheMessageBit m ca cb S
    rw [stepBits_cons, List.zipWith_cons_cons, stepBits_cons, hbit, ih]

/-- `CT` on the ciphertext of `PT` returns the plaintext and leaves the same `S` (R105). -/
theorem ctText_ptText (o : BitOrder) (P : List Byte) (S : Lfsr) :
    ctText o (ptText o P S).1 S = (P, (ptText o P S).2) := by
  rw [ctText, ptText, bitsOfBytes_packBytes o P.length _ (by simp), stepBits_decrypt_of_encrypt, packBytes_bitsOfBytes]

/-- Decryption of a ciphertext returns its plaintext, and the flag by comparing the tags of the two (R124, R126). -/
theorem decryptValue_of_encryptValue (o : BitOrder) (K N A P : List Byte) {T : List Byte} (hT : T.length = 16) :
    decryptValue o K N A (encryptValue o K N A P).1 T = (P, decide (T = (encryptValue o K N A P).2)) := by
  rw [decryptValue, encryptValue, ctText_ptText, tagMatches_eq_decide hT, tagBytes_tagOfBytes (finTag_length _ _)]

theorem encryptValue_tag_length (o : BitOrder) (K N A P : List Byte) : (encryptValue o K N A P).2.length = 16 :=
  finTag_length o _

/-- Settles O47: the tag compared is the one encryption returned. -/
theorem decryptInvertsEncrypt : Obligations.DecryptInvertsEncrypt := by
  intro o K N A P e
  rw [decryptValue_of_encryptValue o K N A P (encryptValue_tag_length o K N A P), decide_eq_true rfl]

/-- Settles O48: `PT` and `CT` return a byte for each byte of the text (R32), and the tag has 16 bytes. -/
theorem lengthsArePreserved : Obligations.LengthsArePreserved := by
  intro o K N A X T
  exact ⟨ptText_length o X _, encryptValue_tag_length o K N A X, ctText_length o X _⟩

/-- Settles O49: the flag is the equality of the two tags. -/
theorem otherTagsAreRejected : Obligations.OtherTagsAreRejected := by
  intro o K N A P T hT hne
  rw [decryptValue_of_encryptValue o K N A P hT, decide_eq_false hne]

end Sys2Proof.Machine
end

section
/-!
PROOFS. The exception (`60_exceptions.md`): what the checks of R148 make of a command of the host, the admission table
(R142), the faulted block (R144), a wrong tag (R145), and that host commands never stop (R171, R172).
-/

namespace Sys2Proof.Machine

/-! ### One operation, by the check that decides it -/

/-- With no fault standing, the format-H command `i` goes through the checks of R148 with the condition of its row (R142)
and its operand lengths (R143), and accepted it leaves `done`, where `PH` and `DIR` are as tabulated (R142). -/
structure GoesThroughChecks (i : Instr) (s : State) (admitted lengthsOk : Bool) (done : State) : Prop where
  exec_eq : exec i s = hostCommand admitted lengthsOk done s
  admitted_iff : admitted = true ↔ admissible i s.ph s.dir
  lengthsOk_iff : lengthsOk = true ↔ wellSized i s.ops
  done_err : done.err = false
  done_ph : done.ph = phaseAfter i s.ph
  done_dir_pt : i = .pt → done.dir = .enc
  done_dir_ct : i = .ct → done.dir = .dec

theorem wellSized_init_iff (x : Operands) : wellSized .init x ↔ x.key.length = 16 ∧ x.nonce.length = 16 := by
  simp [wellSized]

theorem wellSized_cmp_iff (x : Operands) : wellSized .cmp x ↔ x.tagIn.length = 16 := by
  simp [wellSized]

/-- Every format-H command goes through the checks; those of `CLR` never fail. -/
theorem exists_goesThroughChecks {i : Instr} {s : State} (hH : i.isFormatE = false) (he : s.err = false) :
    ∃ admitted lengthsOk done, GoesThroughChecks i s admitted lengthsOk done := by
  cases i with
  | step1 | step1d | step8 | step8d | step32 | step32d => cases hH
  | clr =>
    exact ⟨true, true, s.clearAll, (hostCommand_done he).symm, iff_of_true rfl trivial, iff_of_true rfl ⟨nofun, nofun⟩,
      rfl, rfl, nofun, nofun⟩
  | init =>
    exact ⟨true, initLengthsOk s.ops, _, rfl, iff_of_true rfl trivial,
      (initLengthsOk_iff _).trans (wellSized_init_iff _).symm, he, rfl, nofun, nofun⟩
  | ad =>
    exact ⟨s.ph == .keyed, true, _, rfl, beq_iff_eq, iff_of_true rfl ⟨nofun, nofun⟩, he, rfl, nofun, nofun⟩
  | pt =>
    exact ⟨s.ph == .adDone, true, _, rfl, beq_iff_eq, iff_of_true rfl ⟨nofun, nofun⟩, he, rfl, fun _ => rfl,
      nofun⟩
  | ct =>
    exact ⟨s.ph == .adDone, true, _, rfl, beq_iff_eq, iff_of_true rfl ⟨nofun, nofun⟩, he, rfl, nofun,
      fun _ => rfl⟩
  | fin =>
    exact ⟨s.ph == .textDone, true, _, rfl, beq_iff_eq, iff_of_true rfl ⟨nofun, nofun⟩, he, rfl, nofun, nofun⟩
  | cmp =>
    exact ⟨s.ph == .tagged && s.dir == .dec, cmpLengthOk s.ops, _, rfl, by simp [admissible],
      (cmpLengthOk_iff _).trans (wellSized_cmp_iff _).symm, he, rfl, nofun, nofun⟩

section
variable {i : Instr} {s : State}

/-- Out of its row's condition a command raises `SEQUENCE`, whatever its operands (R142). -/
theorem exec_of_not_admissible (hH : i.isFormatE = false) (he : s.err = false) (hrow : ¬ admissible i s.ph s.dir) :
    exec i s = .next (s.raise .sequence) := by
  obtain ⟨admitted, lengthsOk, done, h⟩ := exists_goesThroughChecks hH he
  obtain rfl : admitted = false := by rwa [Bool.eq_false_iff, ne_eq, h.admitted_iff]
  rw [h.exec_eq, hostCommand_notAdmitted he]

/-- In its row's condition a mis-sized command raises `LENGTH` (R143). -/
theorem exec_of_not_wellSized (hH : i.isFormatE = false) (he : s.err = false) (hrow : admissible i s.ph s.dir)
    (hsize : ¬ wellSized i s.ops) : exec i s = .next (s.raise .length) := by
  obtain ⟨admitted, lengthsOk, done, h⟩ := exists_goesThroughChecks hH he
  obtain rfl : admitted = true := h.admitted_iff.mpr hrow
  obtain rfl : lengthsOk = false := by rwa [Bool.eq_false_iff, ne_eq, h.lengthsOk_iff]
  rw [h.exec_eq, hostCommand_badLength he]

/-- In its row's condition a well-sized command is accepted: no fault, and `PH` and `DIR` as tabulated (R142). -/
theorem exec_of_accepted (hH : i.isFormatE = false) (he : s.err = false) (hrow : admissible i s.ph s.dir)
    (hsize : wellSized i s.ops) :
    ∃ t, exec i s = .next t ∧ t.err = false ∧ t.ph = phaseAfter i s.ph ∧ (i = .pt → t.dir = .enc) ∧
      (i = .ct → t.dir = .dec) := by
  obtain ⟨admitted, lengthsOk, done, h⟩ := exists_goesThroughChecks hH he
  obtain rfl : admitted = true := h.admitted_iff.mpr hrow
  obtain rfl : lengthsOk = true := h.lengthsOk_iff.mpr hsize
  exact ⟨done, h.exec_eq.trans (hostCommand_done he), h.done_err, h.done_ph, h.done_dir_pt, h.done_dir_ct⟩

/-- While a fault stands no operation the host presents but `CLR` changes anything (R144). -/
theorem exec_of_faulted (hhost : s.issuer = .host) (he : s.err = true) (hne : i ≠ .clr) : exec i s = .next s := by
  cases hE : i.isFormatE with
  | true => rw [exec_formatE_of_host hE hhost, illegalCommand_of_faulted he]
  | false =>
    cases i with
    | step1 | step1d | step8 | step8d | step32 | step32d => cases hE
    | clr => exact absurd rfl hne
    | init | ad | pt | ct | fin | cmp => exact hostCommand_faulted he

end

/-- Settles O35: the checks decide by the row's condition, and an accepted command leaves what its row tabulates. -/
theorem admissionTable : Obligations.AdmissionTable := by
  intro i s t hH he hexec
  constructor
  · intro hrow
    cases hexec.symm.trans (exec_of_not_admissible hH he hrow)
    rfl
  · intro hrow hsize
    obtain ⟨u, hu, htable⟩ := exec_of_accepted hH he hrow hsize
    cases hexec.symm.trans hu
    exact htable

/-- Settles O37: the comparison fails, which writes `OK` and `PH` like any comparison, and the next state is free of a
fault, so that `INIT` and `CLR` are accepted in it. -/
theorem wrongTagIsNoFault : Obligations.WrongTagIsNoFault := by
  intro s he hp hd hT hne
  have hwrong : tagMatches s.ops.tagIn s.tag = false := by rwa [Bool.eq_false_iff, ne_eq, tagMatches_iff hT]
  refine ⟨_, exec_cmp he hp hd hT, hwrong, he, rfl, fun x hK hN => ⟨⟨_, exec_init he hK hN, he, rfl⟩, ?clr⟩⟩
  exact ⟨_, exec_clr _, rfl, rfl⟩

/-! ### One step on a word of the host -/

/-- `0x80` is the word of `CLR` and of nothing else (R54). -/
theorem eq_clr_iff_of_decode {cw : Byte} {i : Instr} (hd : decode cw = .ok i) : i = .clr ↔ cw = 0x80#8 := by
  constructor
  · rintro rfl
    exact (encode_of_decode hd).symm
  · rintro rfl
    exact Except.ok.inj (hd.symm.trans (decode_encode .clr))

/-- Settles O7, by the equation of `step` for an empty list (R157, log entry 12). -/
theorem stepHoldsItsStateWithoutACommand : Obligations.StepHoldsItsStateWithoutACommand :=
  fun _ hp => step_nil hp

section
variable {s : State} {r : Request} {rest : List Request} (hp : s.pending = r :: rest) (hhost : r.issuer = .host)
include hp hhost

theorem step_of_decode {i : Instr} (hd : decode r.word = .ok i) :
    step s = releaseOutcome (exec i (s.present r rest)) :=
  stepRunsTheDecodedOperation s r rest i hp hd (.inl hhost)

/-- A word that selects no format-H command, reserved or format E, is illegal (R60, R141). -/
theorem step_of_illegalWord (hnone : ∀ i, decode r.word = .ok i → i.isFormatE = true) :
    step s = .next (s.present r rest).illegalCommand.release := by
  cases hd : decode r.word with
  | ok i =>
    have hpresented : (s.present r rest).issuer = .host := hhost
    rw [step_of_decode hp hhost hd, exec_formatE_of_host (hnone i hd) hpresented, releaseOutcome_next]
  | error e => rw [step_cons hp, issueWord_of_error hd hhost, releaseOutcome_next]

/-- With no fault standing such a word raises `ILLEGAL_COMMAND` (R141). -/
theorem step_of_illegalWord_ready (he : s.err = false) (hnone : ∀ i, decode r.word = .ok i → i.isFormatE = true) :
    step s = .next ((s.present r rest).raise .illegalCommand).release := by
  have hready : (s.present r rest).err = false := he
  rw [step_of_illegalWord hp hhost hnone, illegalCommand_of_ready hready]

/-- While a fault stands no word but `0x80` changes anything; its command leaves the list (R144). -/
theorem step_of_faulted (he : s.err = true) (hne : r.word ≠ 0x80#8) : step s = .next (s.present r rest).release := by
  have hfault : (s.present r rest).err = true := he
  cases hd : decode r.word with
  | ok i =>
    have hclr : i ≠ .clr := mt (eq_clr_iff_of_decode hd).mp hne
    rw [step_of_decode hp hhost hd, exec_of_faulted hhost hfault hclr, releaseOutcome_next]
  | error e =>
    rw [step_of_illegalWord hp hhost (by simp [hd]), illegalCommand_of_faulted hfault]

/-- `0x80` runs `CLR`, whatever the state (R122). -/
theorem step_of_clrWord (hword : r.word = 0x80#8) : step s = .next (s.present r rest).clearAll.release :=
  step_of_decode hp hhost (hword.symm ▸ decode_encode .clr : decode r.word = .ok .clr)

/-- A command of the host always answers, and leaves the commands after it to come. -/
theorem step_next_of_host : ∃ t, step s = .next t ∧ t.pending = rest := by
  obtain ⟨u, hu⟩ : ∃ u, step s = .next u := by
    cases hd : decode r.word with
    | ok i =>
      obtain ⟨t, ht⟩ := exec_next i (s.present r rest)
      exact ⟨t.release, by rw [step_of_decode hp hhost hd, ht, releaseOutcome_next]⟩
    | error e => exact ⟨_, step_of_illegalWord hp hhost (by simp [hd])⟩
  exact ⟨u, hu, by rw [step_pending hu, hp, List.tail_cons]⟩

end

/-- Settles O8: the word is illegal, and with no fault standing that is the exception (R148). -/
theorem illegalHostWordsRaiseIllegalCommand : Obligations.IllegalHostWordsRaiseIllegalCommand := by
  intro s r rest hp hhost he hnone
  exact step_of_illegalWord_ready hp hhost he hnone

/-- Settles O36: a word other than `0x80` releases its operands and nothing else; `0x80` clears every register. -/
theorem faultedBlockAcceptsOnlyClr : Obligations.FaultedBlockAcceptsOnlyClr := by
  intro s r rest hp hhost he
  exact ⟨step_of_faulted hp hhost he, fun hword => ⟨_, step_of_clrWord hp hhost hword, rfl, rfl, rfl, rfl⟩⟩

/-- Settles O38: one case for each check, in the order of R148. -/
theorem checksDecideInOrder : Obligations.ChecksDecideInOrder := by
  intro s r rest hp hhost p
  have hstep {i : Instr} {t : State} (hd : decode r.word = .ok i) (hexec : exec i p = .next t) :
      step s = .next t.release := by
    rw [step_of_decode hp hhost hd, hexec, releaseOutcome_next]
  refine ⟨fun hword => ?clr, fun hne he => ?fault, fun _ he => ⟨fun hnone => ?decode, fun i hd hH =>
    ⟨fun hrow => ?sequence, fun hrow hsize => ?length, fun hrow hsize => ?accepted⟩⟩⟩
  case clr => exact step_of_clrWord hp hhost hword
  case fault => exact step_of_faulted hp hhost he hne
  case decode => exact step_of_illegalWord_ready hp hhost he hnone
  case sequence => exact hstep hd (exec_of_not_admissible hH he hrow)
  case length => exact hstep hd (exec_of_not_wellSized hH he hrow hsize)
  case accepted =>
    obtain ⟨t, hexec, herr, _⟩ := exec_of_accepted (s := p) hH he hrow hsize
    exact ⟨t, hexec, herr, hstep hd hexec⟩

/-! ### Runs of host commands end -/

theorem step_next_of_hostOnly {s : State} (hs : s.HostOnly) :
    ∃ t, step s = .next t ∧ t.pending = s.pending.drop 1 := by
  cases hp : s.pending with
  | nil => exact ⟨s, step_nil hp, hp⟩
  | cons r rest => exact step_next_of_host hp (hs.issuer_eq hp)

/-- `n` steps take the first `n` commands, in order (R42). -/
theorem runSteps_next_of_hostOnly (n : Nat) {s : State} (hs : s.HostOnly) :
    ∃ t, runSteps n s = .next t ∧ t.pending = s.pending.drop n := by
  induction n generalizing s with
  | zero => exact ⟨s, rfl, rfl⟩
  | succ n ih =>
    obtain ⟨u, hu, hpu⟩ := step_next_of_hostOnly hs
    obtain ⟨t, ht, hpt⟩ := ih (step_keeps_hostOnly hs hu)
    exact ⟨t, (runSteps_succ n hu).trans ht, by rw [hpt, hpu, List.drop_drop, Nat.add_comm]⟩

/-- Settles O11: after as many steps as there are commands none is to come, and `ERR` says how the run ended (R172). -/
theorem hostCommandsNeverStop : Obligations.HostCommandsNeverStop := by
  refine ⟨fun s => step_next_of_hostOnly, fun commands hhost => ?runs⟩
  obtain ⟨t, ht, hpt⟩ := runSteps_next_of_hostOnly commands.length (s := startRun commands) hhost
  have hended : t.ended := hpt.trans List.drop_length
  cases herr : t.err with
  | false => exact ⟨t, ht, .inl ⟨hended, herr⟩⟩
  | true => exact ⟨t, ht, .inr ⟨hended, herr⟩⟩

end Sys2Proof.Machine
end

section
/-!
PROOFS. Reset (`70_reset_and_hazards.md`): the values it leaves in the registers and in `STATUS`, and that it leaves what
`CLR` leaves (R160, R161).
-/

namespace Sys2Proof.Machine

/-- Once every register is cleared `STATUS` reads `0x00`, whatever stood before (R22, R23). -/
theorem clearAll_status (s : State) : s.clearAll.status = 0x00#8 := by
  simp [State.status, causeCode, directionCode, phaseCode]

/-- The reset state has nothing left to clear (R160, R122). -/
theorem reset_clearAll : State.reset.clearAll = State.reset := rfl

theorem reset_status : State.reset.status = 0x00#8 := reset_clearAll ▸ clearAll_status State.reset

/-- Reset between two commands and `CLR` leave the same state (R122, R160). -/
theorem exec_clr_eq_applyReset (s : State) : exec .clr s = .next s.applyReset := by
  rw [exec_clr, applyReset_eq]

/-- Settles O1: the registers of the reset state are written out in it, no command is to come in it, and reset and `CLR`
both clear every register. -/
theorem resetLeavesEveryRegisterZero : Obligations.ResetLeavesEveryRegisterZero := by
  refine ⟨rfl, rfl, rfl, rfl, rfl, rfl, rfl, reset_status, ?idle, fun s => ⟨?cleared, exec_clr_eq_applyReset s⟩⟩
  case idle => exact step_nil rfl
  case cleared => exact applyReset_eq s

end Sys2Proof.Machine
end
